-- ==== Sys2Proof/Word.lean ====
section
/-! DEFINITION. The widths of 00_scope.md R6: bytes, 16-bit words, and the fields of an instruction word
(30_encoding.md R92). -/

namespace Sys2Proof

/-- 8 bits: a general register, a timer, a memory cell, the immediate NN (R6). -/
abbrev Byte := BitVec 8

/-- 16 bits: I, PC, a return address, an instruction word (R6). -/
abbrev Word := BitVec 16

/-- The number of a general register, V0 to VF: a 4-bit X or Y field, "register numbers 0 to 15" (R92). -/
abbrev Reg := BitVec 4

/-- The 4-bit immediate N, "a row count 0 to 15" (R92). -/
abbrev Nibble := BitVec 4

/-- The 12-bit immediate NNN, "an address 0 to 0xFFF" (R92). -/
abbrev Addr12 := BitVec 12

/-- VF, register 15, the flag register (10_state.md R21). -/
abbrev vf : Reg := 0xF#4

end Sys2Proof
end

