-- ==== Sys2Proof/Syntax.lean ====
section
/-! DEFINITION. The 35 instructions of 30_encoding.md R95, one constructor per row, in the table's order. -/

namespace Sys2Proof

/-- One constructor per row of the opcode map (R95). The shifts keep their ignored Y field, so that an
instruction says every bit of its word (R149, R151). -/
inductive Instr where
  /-- 0NNN other than 00E0 and 00EE, SYS NNN (R121). -/
  | sys (nnn : Addr12)
  /-- 00E0, CLS (R181). -/
  | cls
  /-- 00EE, RET (R122). -/
  | ret
  /-- 1NNN, JP NNN (R123). -/
  | jp (nnn : Addr12)
  /-- 2NNN, CALL NNN (R124). -/
  | call (nnn : Addr12)
  /-- 3XNN, SE Vx, NN (R125). -/
  | seImm (x : Reg) (nn : Byte)
  /-- 4XNN, SNE Vx, NN (R126). -/
  | sneImm (x : Reg) (nn : Byte)
  /-- 5XY0, SE Vx, Vy (R127). -/
  | seReg (x y : Reg)
  /-- 6XNN, LD Vx, NN (R141). -/
  | ldImm (x : Reg) (nn : Byte)
  /-- 7XNN, ADD Vx, NN (R142). -/
  | addImm (x : Reg) (nn : Byte)
  /-- 8XY0, LD Vx, Vy (R143). -/
  | ldReg (x y : Reg)
  /-- 8XY1, OR Vx, Vy (R144). -/
  | orReg (x y : Reg)
  /-- 8XY2, AND Vx, Vy (R145). -/
  | andReg (x y : Reg)
  /-- 8XY3, XOR Vx, Vy (R146). -/
  | xorReg (x y : Reg)
  /-- 8XY4, ADD Vx, Vy (R147). -/
  | addReg (x y : Reg)
  /-- 8XY5, SUB Vx, Vy (R148). -/
  | subReg (x y : Reg)
  /-- 8XY6, SHR Vx (R149). -/
  | shr (x y : Reg)
  /-- 8XY7, SUBN Vx, Vy (R150). -/
  | subnReg (x y : Reg)
  /-- 8XYE, SHL Vx (R151). -/
  | shl (x y : Reg)
  /-- 9XY0, SNE Vx, Vy (R128). -/
  | sneReg (x y : Reg)
  /-- ANNN, LD I, NNN (R161). -/
  | ldI (nnn : Addr12)
  /-- BNNN, JP V0, NNN (R129). -/
  | jpV0 (nnn : Addr12)
  /-- CXNN, RND Vx, NN (R152). -/
  | rnd (x : Reg) (nn : Byte)
  /-- DXYN, DRW Vx, Vy, N (R182). -/
  | drw (x y : Reg) (n : Nibble)
  /-- EX9E, SKP Vx (R130). -/
  | skp (x : Reg)
  /-- EXA1, SKNP Vx (R131). -/
  | sknp (x : Reg)
  /-- FX07, LD Vx, DT (R190). -/
  | ldVxDt (x : Reg)
  /-- FX0A, LD Vx, K (R195). -/
  | ldVxK (x : Reg)
  /-- FX15, LD DT, Vx (R191). -/
  | ldDtVx (x : Reg)
  /-- FX18, LD ST, Vx (R192). -/
  | ldStVx (x : Reg)
  /-- FX1E, ADD I, Vx (R162). -/
  | addIVx (x : Reg)
  /-- FX29, LD F, Vx (R163). -/
  | ldFVx (x : Reg)
  /-- FX33, LD B, Vx (R164). -/
  | ldBVx (x : Reg)
  /-- FX55, LD [I], Vx, the register store (R165). -/
  | storeRegs (x : Reg)
  /-- FX65, LD Vx, [I], the register load (R166). -/
  | loadRegs (x : Reg)
  deriving DecidableEq, Repr

end Sys2Proof
end

