-- ==== Sys2Proof/Decode.lean ====
section
/-! DEFINITION. Decoding and encoding: the fields of 30_encoding.md R92, the formats of R91, the opcode map of R95
and the illegal words of R96. Decoding is "a function of w alone" (R93). -/

namespace Sys2Proof

/-! ### Fields (R92) -/

/-- op = w[15:12]. -/
def opField (w : Word) : BitVec 4 := w.extractLsb' 12 4

/-- x = w[11:8]. -/
def xField (w : Word) : Reg := w.extractLsb' 8 4

/-- y = w[7:4]. -/
def yField (w : Word) : Reg := w.extractLsb' 4 4

/-- n = w[3:0]. -/
def nField (w : Word) : Nibble := w.extractLsb' 0 4

/-- nn = w[7:0]. -/
def nnField (w : Word) : Byte := w.extractLsb' 0 8

/-- nnn = w[11:0]. -/
def nnnField (w : Word) : Addr12 := w.extractLsb' 0 12

/-! ### Decoding (R93, R95, R96) -/

/-- The rows of R96 that match no instruction, by family; the SYS row is an instruction (R97). -/
inductive IllegalWord where
  /-- 0x5XYn with n other than 0. -/
  | family5
  /-- 0x8XYn with n in 8, 9, A, B, C, D, F. -/
  | family8
  /-- 0x9XYn with n other than 0. -/
  | family9
  /-- 0xEXnn with nn other than 9E and A1. -/
  | familyE
  /-- 0xFXnn with nn not in the list of R96. -/
  | familyF
  deriving DecidableEq, Repr

/-- Family 8: n selects (R95 rows 11 to 19). -/
def decode8 (w : Word) : Except IllegalWord Instr :=
  if nField w = 0x0#4 then .ok (.ldReg (xField w) (yField w))
  else if nField w = 0x1#4 then .ok (.orReg (xField w) (yField w))
  else if nField w = 0x2#4 then .ok (.andReg (xField w) (yField w))
  else if nField w = 0x3#4 then .ok (.xorReg (xField w) (yField w))
  else if nField w = 0x4#4 then .ok (.addReg (xField w) (yField w))
  else if nField w = 0x5#4 then .ok (.subReg (xField w) (yField w))
  else if nField w = 0x6#4 then .ok (.shr (xField w) (yField w))
  else if nField w = 0x7#4 then .ok (.subnReg (xField w) (yField w))
  else if nField w = 0xE#4 then .ok (.shl (xField w) (yField w))
  else .error .family8

/-- Family E: nn selects (R95 rows 25, 26). -/
def decodeE (w : Word) : Except IllegalWord Instr :=
  if nnField w = 0x9E#8 then .ok (.skp (xField w))
  else if nnField w = 0xA1#8 then .ok (.sknp (xField w))
  else .error .familyE

/-- Family F: nn selects (R95 rows 27 to 35). -/
def decodeF (w : Word) : Except IllegalWord Instr :=
  if nnField w = 0x07#8 then .ok (.ldVxDt (xField w))
  else if nnField w = 0x0A#8 then .ok (.ldVxK (xField w))
  else if nnField w = 0x15#8 then .ok (.ldDtVx (xField w))
  else if nnField w = 0x18#8 then .ok (.ldStVx (xField w))
  else if nnField w = 0x1E#8 then .ok (.addIVx (xField w))
  else if nnField w = 0x29#8 then .ok (.ldFVx (xField w))
  else if nnField w = 0x33#8 then .ok (.ldBVx (xField w))
  else if nnField w = 0x55#8 then .ok (.storeRegs (xField w))
  else if nnField w = 0x65#8 then .ok (.loadRegs (xField w))
  else .error .familyF

/-- The whole opcode map in the order of R93: CLS and RET first, then the family op, then n or nn inside it. -/
def decode (w : Word) : Except IllegalWord Instr :=
  if w = 0x00E0#16 then .ok .cls
  else if w = 0x00EE#16 then .ok .ret
  else if opField w = 0x0#4 then .ok (.sys (nnnField w))
  else if opField w = 0x1#4 then .ok (.jp (nnnField w))
  else if opField w = 0x2#4 then .ok (.call (nnnField w))
  else if opField w = 0x3#4 then .ok (.seImm (xField w) (nnField w))
  else if opField w = 0x4#4 then .ok (.sneImm (xField w) (nnField w))
  else if opField w = 0x5#4 then
    if nField w = 0x0#4 then .ok (.seReg (xField w) (yField w)) else .error .family5
  else if opField w = 0x6#4 then .ok (.ldImm (xField w) (nnField w))
  else if opField w = 0x7#4 then .ok (.addImm (xField w) (nnField w))
  else if opField w = 0x8#4 then decode8 w
  else if opField w = 0x9#4 then
    if nField w = 0x0#4 then .ok (.sneReg (xField w) (yField w)) else .error .family9
  else if opField w = 0xA#4 then .ok (.ldI (nnnField w))
  else if opField w = 0xB#4 then .ok (.jpV0 (nnnField w))
  else if opField w = 0xC#4 then .ok (.rnd (xField w) (nnField w))
  else if opField w = 0xD#4 then .ok (.drw (xField w) (yField w) (nField w))
  else if opField w = 0xE#4 then decodeE w
  else decodeF w

/-- "two consecutive bytes, big-endian combine": the byte at the lower address is bits 15 to 8 (R64, R67). -/
def wordOfBytes (hi lo : Byte) : Word := hi ++ lo

/-- The byte at the lower address. -/
def highByte (w : Word) : Byte := w.extractLsb' 8 8

/-- The byte at the higher address. -/
def lowByte (w : Word) : Byte := w.extractLsb' 0 8

/-- Why a run of bytes is no instruction. -/
inductive DecodeReject where
  /-- Fewer than two bytes: an instruction is 16 bits (R90). -/
  | tooShort
  /-- A word no row of R95 matches (R96). -/
  | illegal (why : IllegalWord)
  deriving DecidableEq, Repr

/-- Decoding of bytes in memory order: the instruction of the first two, and the bytes after it (R90). -/
def decodeBytes : List Byte → Except DecodeReject (Instr × List Byte)
  | hi :: lo :: rest =>
    match decode (wordOfBytes hi lo) with
    | .ok i => .ok (i, rest)
    | .error e => .error (.illegal e)
  | _ => .error .tooShort

/-! ### Encoding (R91, R95) -/

/-- Format A: op, nnn. -/
def formatA (op : BitVec 4) (nnn : Addr12) : Word := op ++ nnn

/-- Format I: op, x, nn. -/
def formatI (op : BitVec 4) (x : Reg) (nn : Byte) : Word := op ++ (x ++ nn : BitVec 12)

/-- Formats R and D: op, x, y and the 4-bit sub-opcode or n. -/
def formatR (op : BitVec 4) (x y : Reg) (n : Nibble) : Word := op ++ (x ++ (y ++ n : BitVec 8) : BitVec 12)

/-- The word of an instruction, by its row of R95. Format X is format I with a fixed nn. -/
def encode : Instr → Word
  | .sys nnn => formatA 0x0#4 nnn
  | .cls => 0x00E0#16
  | .ret => 0x00EE#16
  | .jp nnn => formatA 0x1#4 nnn
  | .call nnn => formatA 0x2#4 nnn
  | .seImm x nn => formatI 0x3#4 x nn
  | .sneImm x nn => formatI 0x4#4 x nn
  | .seReg x y => formatR 0x5#4 x y 0x0#4
  | .ldImm x nn => formatI 0x6#4 x nn
  | .addImm x nn => formatI 0x7#4 x nn
  | .ldReg x y => formatR 0x8#4 x y 0x0#4
  | .orReg x y => formatR 0x8#4 x y 0x1#4
  | .andReg x y => formatR 0x8#4 x y 0x2#4
  | .xorReg x y => formatR 0x8#4 x y 0x3#4
  | .addReg x y => formatR 0x8#4 x y 0x4#4
  | .subReg x y => formatR 0x8#4 x y 0x5#4
  | .shr x y => formatR 0x8#4 x y 0x6#4
  | .subnReg x y => formatR 0x8#4 x y 0x7#4
  | .shl x y => formatR 0x8#4 x y 0xE#4
  | .sneReg x y => formatR 0x9#4 x y 0x0#4
  | .ldI nnn => formatA 0xA#4 nnn
  | .jpV0 nnn => formatA 0xB#4 nnn
  | .rnd x nn => formatI 0xC#4 x nn
  | .drw x y n => formatR 0xD#4 x y n
  | .skp x => formatI 0xE#4 x 0x9E#8
  | .sknp x => formatI 0xE#4 x 0xA1#8
  | .ldVxDt x => formatI 0xF#4 x 0x07#8
  | .ldVxK x => formatI 0xF#4 x 0x0A#8
  | .ldDtVx x => formatI 0xF#4 x 0x15#8
  | .ldStVx x => formatI 0xF#4 x 0x18#8
  | .addIVx x => formatI 0xF#4 x 0x1E#8
  | .ldFVx x => formatI 0xF#4 x 0x29#8
  | .ldBVx x => formatI 0xF#4 x 0x33#8
  | .storeRegs x => formatI 0xF#4 x 0x55#8
  | .loadRegs x => formatI 0xF#4 x 0x65#8

/-- The two bytes of an instruction in memory order (R67). -/
def encodeBytes (i : Instr) : List Byte := [highByte (encode i), lowByte (encode i)]

/-! ### The opcode table's numbering -/

/-- The word whose bits are w, of which the table gives the lowest nbits: the bits above them are 0. -/
def tableWord (nbits w : Nat) : Word := BitVec.ofNat 16 (w % 2 ^ nbits)

/-- The instruction the decoder reads from a row of the opcode table: its one 16-bit word, laid out high byte first
(R67). -/
def decodeTableWord (nbits w : Nat) : Option Instr :=
  match decodeBytes [highByte (tableWord nbits w), lowByte (tableWord nbits w)] with
  | .ok (i, _) => some i
  | .error _ => none

/-! ### The rows of the opcode map as mask and match (R93, R95) -/

/-- The row's mask column in R95. -/
def Instr.rowMask : Instr → Word
  | .cls | .ret => 0xFFFF#16
  | .sys _ | .jp _ | .call _ | .seImm _ _ | .sneImm _ _ | .ldImm _ _ | .addImm _ _ | .ldI _ | .jpV0 _
  | .rnd _ _ | .drw _ _ _ => 0xF000#16
  | .seReg _ _ | .ldReg _ _ | .orReg _ _ | .andReg _ _ | .xorReg _ _ | .addReg _ _ | .subReg _ _ | .shr _ _
  | .subnReg _ _ | .shl _ _ | .sneReg _ _ => 0xF00F#16
  | .skp _ | .sknp _ | .ldVxDt _ | .ldVxK _ | .ldDtVx _ | .ldStVx _ | .addIVx _ | .ldFVx _ | .ldBVx _
  | .storeRegs _ | .loadRegs _ => 0xF0FF#16

/-- The row's match column in R95. -/
def Instr.rowMatch : Instr → Word
  | .sys _ => 0x0000#16
  | .cls => 0x00E0#16
  | .ret => 0x00EE#16
  | .jp _ => 0x1000#16
  | .call _ => 0x2000#16
  | .seImm _ _ => 0x3000#16
  | .sneImm _ _ => 0x4000#16
  | .seReg _ _ => 0x5000#16
  | .ldImm _ _ => 0x6000#16
  | .addImm _ _ => 0x7000#16
  | .ldReg _ _ => 0x8000#16
  | .orReg _ _ => 0x8001#16
  | .andReg _ _ => 0x8002#16
  | .xorReg _ _ => 0x8003#16
  | .addReg _ _ => 0x8004#16
  | .subReg _ _ => 0x8005#16
  | .shr _ _ => 0x8006#16
  | .subnReg _ _ => 0x8007#16
  | .shl _ _ => 0x800E#16
  | .sneReg _ _ => 0x9000#16
  | .ldI _ => 0xA000#16
  | .jpV0 _ => 0xB000#16
  | .rnd _ _ => 0xC000#16
  | .drw _ _ _ => 0xD000#16
  | .skp _ => 0xE09E#16
  | .sknp _ => 0xE0A1#16
  | .ldVxDt _ => 0xF007#16
  | .ldVxK _ => 0xF00A#16
  | .ldDtVx _ => 0xF015#16
  | .ldStVx _ => 0xF018#16
  | .addIVx _ => 0xF01E#16
  | .ldFVx _ => 0xF029#16
  | .ldBVx _ => 0xF033#16
  | .storeRegs _ => 0xF055#16
  | .loadRegs _ => 0xF065#16

end Sys2Proof
end

