-- ==== Sys2Proof/Config.lean ====
section
/-! DEFINITION. What 00_scope.md fixes (R6) and what it leaves open (R7). The open ones are opaque: no proof can
see their value. -/

namespace Sys2Proof

/-- CPU_HZ - 60, left open by R7 (D1): any natural number. Log entry 1. -/
opaque Config.cpuHzAbove60 : Nat

/-- "CPU_HZ, positive integer, CPU_HZ >= 60" (R7): the steps per second, used by the prescaler only (R226). Every
value the constraint allows is a value of this constant. Log entry 1. -/
def Config.cpuHz : Nat := Config.cpuHzAbove60 + 60

/-- rand8, "an oracle that yields one byte each time it is asked" (R7, R152, D20): the byte of the k-th asking.
A free value: it has no body. Log entry 2. -/
opaque Config.rand8 : Nat → Byte

/-- The number of bytes of the font, "16 glyphs of 5 bytes" (R6). -/
abbrev Config.fontLength : Nat := 80

/-- FONT, "80 bytes", left open by R7 and a parameter of the model (R66, U17): byte j lies at 0x050 + j. It has no body,
so no claim can rest on the shape of a glyph but by a premise (Machine.FontIsCustomary). Log entry 3. -/
opaque Config.font : Fin Config.fontLength → Byte

/-- "timer rate, 60 decrements per second" (R6). -/
def Config.timerHz : Nat := 60

/-- The highest address of main memory, 0xFFF (R6). -/
def Config.memTop : Nat := 0xFFF

/-- The font region starts at 0x050 (R6). -/
def Config.fontBase : Nat := 0x050

/-- "program load address and reset PC, 0x200" (R6). -/
def Config.programBase : Nat := 0x200

/-- "largest program, 0x0E00 bytes" (R6). -/
def Config.maxProgram : Nat := 0x0E00

/-- "call stack depth, 16 entries" (R6). -/
abbrev Config.stackDepth : Nat := 16

/-- 64 columns (R6). -/
abbrev Config.columns : Nat := 64

/-- 32 rows (R6). -/
abbrev Config.rows : Nat := 32

/-- "dirty buckets, 8 per row" (R6). -/
abbrev Config.buckets : Nat := 8

/-- 16 keys (R6). -/
abbrev Config.keys : Nat := 16

end Sys2Proof
end

