-- ==== Sys2Proof/Machine/State.lean ====
section
/-! DEFINITION. The state of 10_state.md, as plain data, and its value after construction (70_reset_and_hazards.md
R252). -/

namespace Sys2Proof.Machine

/-- MS, the machine state, "{Uninitialized, Loaded, Running, Stopped, Faulted}" (R33). -/
inductive Lifecycle where
  | uninitialized
  | loaded
  | running
  | stopped
  | faulted
  deriving DecidableEq, Repr

/-- FR, the fault reason: None or one of the four execution faults, in the order of their codes (R34, R200). -/
inductive FaultReason where
  | noFault
  | addressOutOfRange
  | stackOverflow
  | stackUnderflow
  | illegalInstruction
  deriving DecidableEq, Repr

/-- The four caller-misuse errors, answers of host operations that change no state (R210). -/
inductive CallerError where
  | romTooLarge
  | notLoaded
  | alreadyRunning
  | invalidKey
  deriving DecidableEq, Repr

/-- A step of this machine never stops with a fault of the model, so there is no constructor: each of the four
execution faults of the spec is an entry it describes (R205), taken as a next state with FR and MS written, and a
Faulted machine goes on answering steps that change nothing (R220). Log entry 5. -/
inductive Fault
  deriving DecidableEq, Repr

/-- Reasons for an instruction to have no meaning. -/
inductive Refusal where
  /-- Raised by exec's arm of an instruction that has no meaning yet, and by nothing else. Safe: nothing is claimed
  of the instruction. No arm raises it: all 35 have their meaning. -/
  | notModelled (mnemonic : String)
  deriving DecidableEq, Repr

/-- A grid of h rows of w booleans: the display buffer and the dirty tracker (R31, R37). -/
abbrev Grid (h w : Nat) := Vector (Vector Bool w) h

/-- The bytes of main memory that differ from its reset contents, in the canonical form of Memory.wf. -/
abbrev Memory := List Host.Cell

/-- Every piece of state of 10_state.md, and the model's own counter of random bytes asked for. -/
structure State where
  /-- V0 to VF (R20). -/
  v : Vector Byte 16
  /-- I, the index register (R26). -/
  i : Word
  /-- PC (R23). -/
  pc : Word
  /-- SP, the number of stack entries in use, 0 to 16 (R27). -/
  sp : Fin (Config.stackDepth + 1)
  /-- STK, dead slots included (R27). -/
  stk : Vector Word Config.stackDepth
  /-- DT, the delay timer (R28). -/
  dt : Byte
  /-- ST, the sound timer (R29). -/
  st : Byte
  /-- TACC, the tick accumulator (R36). -/
  tacc : Nat
  /-- MEM, main memory (R37, R60). -/
  mem : Memory
  /-- FB, the display buffer, row by row, true for a set pixel (R37). -/
  fb : Grid Config.rows Config.columns
  /-- DIRTY, the dirty tracker (R31). -/
  dirty : Grid Config.rows Config.buckets
  /-- DRAWP, the draw-pending flag (R30). -/
  drawp : Bool
  /-- KEY, true for pressed (R32). -/
  key : Vector Bool Config.keys
  /-- MS (R33). -/
  ms : Lifecycle
  /-- FR (R34). -/
  fr : FaultReason
  /-- LOADED (R35). -/
  loaded : Bool
  /-- ROMLEN (R35). -/
  romlen : Nat
  /-- The MODEL's own field: how many bytes have been asked of rand8 (R7); log entry 2. -/
  draws : Nat
  deriving DecidableEq, Repr

/-- The machine after construction, "the power-on of this block" (R250, R252): every field at the value of the table
of R39; draws is 0 by the model's choice (log entry 2). -/
def State.reset : State where
  v := Vector.replicate 16 0
  i := 0
  pc := 0x200
  sp := 0
  stk := Vector.replicate Config.stackDepth 0
  dt := 0
  st := 0
  tacc := 0
  mem := []
  fb := Vector.replicate Config.rows (Vector.replicate Config.columns false)
  dirty := Vector.replicate Config.rows (Vector.replicate Config.buckets false)
  drawp := false
  key := Vector.replicate Config.keys false
  ms := .uninitialized
  fr := .noFault
  loaded := false
  romlen := 0
  draws := 0

end Sys2Proof.Machine
end

