-- ==== Sys2Proof/Machine/Ops.lean ====
section
/-! DEFINITION. The named operations over memory, registers, display and timers, and taking a fault: the primitives
of 00_scope.md R10. -/

namespace Sys2Proof.Machine

/-! ### Main memory (20_memory.md) -/

/-- What an address no entry lists reads as: the contents of memory after construction and reset, "MEM[0x050 + j] =
FONT[j]" and 0 everywhere else (R39, R66). Log entries 3 and 6. -/
def Memory.initial (a : Nat) : Byte :=
  if h : Config.fontBase ≤ a ∧ a < Config.fontBase + Config.fontLength then
    Config.font ⟨a - Config.fontBase, by omega⟩
  else 0

/-- "The customary CHIP-8 font", the table of R66: glyphs 0 to F, five bytes each, top row first. Nothing in the machine
reads it: it is there for FontIsCustomary. Log entry 3. -/
def customaryFont : List Byte :=
  [0xF0, 0x90, 0x90, 0x90, 0xF0] ++ [0x20, 0x60, 0x20, 0x20, 0x70] ++
  [0xF0, 0x10, 0xF0, 0x80, 0xF0] ++ [0xF0, 0x10, 0xF0, 0x10, 0xF0] ++
  [0x90, 0x90, 0xF0, 0x10, 0x10] ++ [0xF0, 0x80, 0xF0, 0x10, 0xF0] ++
  [0xF0, 0x80, 0xF0, 0x90, 0xF0] ++ [0xF0, 0x10, 0x20, 0x40, 0x40] ++
  [0xF0, 0x90, 0xF0, 0x90, 0xF0] ++ [0xF0, 0x90, 0xF0, 0x10, 0xF0] ++
  [0xF0, 0x90, 0xF0, 0x90, 0x90] ++ [0xE0, 0x90, 0xE0, 0x90, 0xE0] ++
  [0xF0, 0x80, 0x80, 0x80, 0xF0] ++ [0xE0, 0x90, 0x90, 0x90, 0xE0] ++
  [0xF0, 0x80, 0xF0, 0x80, 0xF0] ++ [0xF0, 0x80, 0xF0, 0x80, 0x80]

/-- FONT is the customary table: the premise that "claims about glyph shapes name" (U17). -/
def FontIsCustomary : Prop := ∀ j : Fin Config.fontLength, Config.font j = customaryFont.getD j.val 0

/-- MEM[a]. -/
def Memory.get : Memory → Nat → Byte
  | [], a => Memory.initial a
  | (k, b) :: rest, a => if a = k then b else Memory.get rest a

/-- The entries but any for address a. -/
def Memory.erase (m : Memory) (a : Nat) : Memory := m.filter fun c => c.1 ≠ a

/-- An entry put before the first one of a higher address. -/
def Memory.insert : Memory → Nat → Byte → Memory
  | [], a, b => [(a, b)]
  | (k, c) :: rest, a, b => if a < k then (a, b) :: (k, c) :: rest else (k, c) :: Memory.insert rest a b

/-- MEM[a] <- b, keeping the entries sorted and listing no byte equal to its reset contents. -/
def Memory.set (m : Memory) (a : Nat) (b : Byte) : Memory :=
  if b = Memory.initial a then m.erase a else (m.erase a).insert a b

/-- The canonical form from address lo on: addresses strictly rising and at most 0xFFF, no entry equal to what its
address reads as unlisted. -/
def Memory.wfFrom (lo : Nat) : Memory → Bool
  | [] => true
  | (a, b) :: rest =>
    decide (lo ≤ a) && decide (a ≤ Config.memTop) && decide (b ≠ Memory.initial a) && Memory.wfFrom (a + 1) rest

/-- The canonical form of main memory. -/
def Memory.wf (m : Memory) : Bool := Memory.wfFrom 0 m

/-- MEM[a + k] <- bs[k], ascending: the loader's copy (R212). -/
def Memory.setBytes (m : Memory) (a : Nat) : List Byte → Memory
  | [] => m
  | b :: bs => Memory.setBytes (Memory.set m a b) (a + 1) bs

/-- The entries of a program area of the given length, [0x200, 0x200 + length): what the reset sequence leaves; every
other byte goes back to its reset contents (R251). -/
def Memory.keepProgram (m : Memory) (length : Nat) : Memory :=
  m.filter fun c => decide (Config.programBase ≤ c.1) && decide (c.1 < Config.programBase + length)

/-- MEM[a] of a state, 8 bits; meaningful for a at most 0xFFF (R37). -/
def State.byteAt (s : State) (a : Nat) : Byte := s.mem.get a

/-- MemRead(a, 1): the byte, or AddressOutOfRange when a > 0xFFF (R62). -/
def State.memRead (s : State) (a : Nat) : Except FaultReason Byte :=
  if a > Config.memTop then .error .addressOutOfRange else .ok (s.byteAt a)

/-- MemWrite(a, 1, b): the store, or AddressOutOfRange with nothing written when a > 0xFFF (R63). -/
def State.memWrite (s : State) (a : Nat) (b : Byte) : Except FaultReason State :=
  if a > Config.memTop then .error .addressOutOfRange else .ok { s with mem := s.mem.set a b }

/-- MemRead(PC, 2), the fetch: the byte at PC first, then the one at PC + 1, formed without wrap (R64). -/
def State.fetch (s : State) : Except FaultReason Word :=
  match s.memRead s.pc.toNat with
  | .error f => .error f
  | .ok hi =>
    match s.memRead (s.pc.toNat + 1) with
    | .error f => .error f
    | .ok lo => .ok (wordOfBytes hi lo)

/-! ### Registers (10_state.md) -/

/-- V[r]. -/
def State.reg (s : State) (r : Reg) : Byte := s.v[r.toNat]'r.isLt

/-- V[r] <- b; no register is hardwired (R20). -/
def State.setReg (s : State) (r : Reg) (b : Byte) : State := { s with v := s.v.set r.toNat b r.isLt }

/-- PC <- PC + 2: the advance before dispatch, and a taken skip (R23, R120). -/
def State.advancePc (s : State) : State := { s with pc := s.pc + 2 }

/-- PC <- target. -/
def State.jump (s : State) (target : Word) : State := { s with pc := target }

/-- "Skip means PC <- PC + 2" (R120), if the condition holds. -/
def State.skipIf (s : State) (c : Bool) : State := if c then s.advancePc else s

/-! ### Taking a fault (60_exceptions.md R205) -/

/-- raise F: FR <- F, MS <- Faulted, and nothing else (R205). There is no return from it but start() (R208). -/
def State.raise (s : State) (f : FaultReason) : State := { s with fr := f, ms := .faulted }

/-! ### The call stack (R27) -/

/-- STK[SP] <- w; SP <- SP + 1; or StackOverflow when SP = 16 (R124). -/
def State.push (s : State) (w : Word) : Except FaultReason State :=
  if h : s.sp.val < Config.stackDepth then
    .ok { s with stk := s.stk.set s.sp.val w h, sp := ⟨s.sp.val + 1, Nat.succ_lt_succ h⟩ }
  else .error .stackOverflow

/-- SP <- SP - 1, answering STK[SP]; or StackUnderflow when SP = 0 (R122). The slot keeps its value. -/
def State.pop (s : State) : Except FaultReason (Word × State) :=
  if h : 0 < s.sp.val then
    .ok (s.stk[s.sp.val - 1]'(by omega), { s with sp := ⟨s.sp.val - 1, by omega⟩ })
  else .error .stackUnderflow

/-! ### Several bytes, ascending, each checked on its own (R65, R209) -/

/-- MemWrite of each byte in turn from address a on; a fault stops there and the bytes before it stay (R209). -/
def State.storeBytes (s : State) (a : Nat) : List Byte → State
  | [] => s
  | b :: bs =>
    match s.memWrite a b with
    | .error f => s.raise f
    | .ok s' => State.storeBytes s' (a + 1) bs

/-- V[r] <- MemRead for each register in turn from address a on; a fault stops there and the registers before it stay
loaded (R209). -/
def State.loadBytes (s : State) (a : Nat) : List Reg → State
  | [] => s
  | r :: rs =>
    match s.memRead a with
    | .error f => s.raise f
    | .ok b => State.loadBytes (s.setReg r b) (a + 1) rs

/-! ### The display (43_display.md) -/

/-- g[y][x]. -/
def Grid.get {h w : Nat} (g : Grid h w) (y : Fin h) (x : Fin w) : Bool := g[y.val][x.val]

/-- g[y][x] <- b. -/
def Grid.set {h w : Nat} (g : Grid h w) (y : Fin h) (x : Fin w) (b : Bool) : Grid h w :=
  Vector.set g y.val (Vector.set g[y.val] x.val b)

/-- g[y][x] <- b for every y and x. -/
def Grid.fill (h w : Nat) (b : Bool) : Grid h w := Vector.replicate h (Vector.replicate w b)

/-- px mod 64 (R180). -/
def column (px : Nat) : Fin Config.columns := ⟨px % 64, Nat.mod_lt _ (by decide)⟩

/-- py mod 32 (R180). -/
def row (py : Nat) : Fin Config.rows := ⟨py % 32, Nat.mod_lt _ (by decide)⟩

/-- "the bucket of column x is x div 8" (R31). -/
def bucketOf (x : Fin Config.columns) : Fin Config.buckets := ⟨x.val / 8, Nat.div_lt_of_lt_mul x.isLt⟩

/-- FB[y][x], true for a set pixel. -/
def State.pixel (s : State) (y : Fin Config.rows) (x : Fin Config.columns) : Bool := s.fb.get y x

/-- DIRTY[y][b]. -/
def State.isDirty (s : State) (y : Fin Config.rows) (b : Fin Config.buckets) : Bool := s.dirty.get y b

/-- SetPixelToggle(px, py): answers the old pixel; true means it went from set to unset (R180). -/
def State.togglePixel (s : State) (px py : Nat) : Bool × State :=
  let old := s.pixel (row py) (column px)
  (old, { s with
    fb := s.fb.set (row py) (column px) (!old)
    dirty := s.dirty.set (row py) (bucketOf (column px)) true })

/-- The inner loop of DRW over the columns listed: bit 7 - c of the row byte b toggles the pixel at (x0 + c, y); a
pixel that was set sets VF (R182). -/
def State.drawColumns (s : State) (x0 y : Nat) (b : Byte) : List Nat → State
  | [] => s
  | c :: cs =>
    if b.getLsbD (7 - c) then
      let p := s.togglePixel (x0 + c) y
      State.drawColumns (if p.1 then p.2.setReg vf 1 else p.2) x0 y b cs
    else State.drawColumns s x0 y b cs

/-- The outer loop of DRW over the rows listed: row r is the byte at base + r; a fault stops there and the rows before
it stay drawn (R182, R209). -/
def State.drawRows (s : State) (x0 y0 base : Nat) : List Nat → State
  | [] => s
  | r :: rs =>
    match s.memRead (base + r) with
    | .error f => s.raise f
    | .ok b => State.drawRows (s.drawColumns x0 (y0 + r) b (List.range 8)) x0 y0 base rs

/-! ### Keys (10_state.md R32) -/

/-- KEY[k]. -/
def State.keyDown (s : State) (k : Fin Config.keys) : Bool := s.key[k.val]

/-- "the least such k" with KEY[k] true, if there is one (R195). -/
def State.leastKeyDown (s : State) : Option (Fin Config.keys) :=
  (List.finRange Config.keys).find? fun k => s.keyDown k

/-! ### Timers (60_exceptions.md section 6) -/

/-- One timer's decrement, saturating at 0 (R225). -/
def countDown (t : Byte) : Byte := if t = 0 then 0 else t - 1

/-- Tick(): one 60 Hz decrement of both timers, each tested on its own (R225). -/
def State.tick (s : State) : State := { s with dt := countDown s.dt, st := countDown s.st }

/-- The last four lines of R220 at a rate of hz steps a second: the prescaler (R226). -/
def State.prescaleAt (hz : Nat) (s : State) : State :=
  let t := s.tacc + Config.timerHz
  { s with
    tacc := if hz ≤ t then t - hz else t
    dt := if hz ≤ t then s.tick.dt else s.dt
    st := if hz ≤ t then s.tick.st else s.st }

/-- The prescaler at the configured CPU_HZ (R226). -/
def State.prescale (s : State) : State := s.prescaleAt Config.cpuHz

/-- The end of a step: the prescaler, "reached only when nothing was raised" (R220); a raise has made MS Faulted
(R205) and no instruction writes MS otherwise (R33). -/
def State.endStep (s : State) : State := if s.ms = .running then s.prescale else s

/-! ### The random oracle (00_scope.md R7) -/

/-- rand8(): a byte under no law, a fresh one at each asking. Log entry 2. -/
def State.rand8 (s : State) : Byte × State := (Config.rand8 s.draws, { s with draws := s.draws + 1 })

end Sys2Proof.Machine
end

