-- ==== Sys2Proof/Machine/Operands.lean ====
section
/-! DEFINITION. The operand forms of the instructions: immediates, the effective address I + k, and the registers,
digits and keys a register's value selects. -/

namespace Sys2Proof.Machine

/-- zext_16(nnn) (R10, R92). -/
def addrOperand (nnn : Addr12) : Word := nnn.setWidth 16

/-- zext_16(V[x]) (R10, R129, R162). -/
def byteOperand (b : Byte) : Word := b.setWidth 16

/-- The base of the one addressing mode: I, as an unbounded integer to which k is added without wrap (R61, R160). -/
def State.base (s : State) : Nat := s.i.toNat

/-- The registers V0 to V[x] in ascending order, of the register store and load (R165, R166). -/
def regsUpTo (x : Reg) : List Reg := (List.range (x.toNat + 1)).map (BitVec.ofNat 4)

/-- V[x] & 0x0F as a number: the digit of LD F (R163) and the key of SKP and SKNP (R130, R131). -/
def lowNibble (b : Byte) : Fin 16 := ⟨(b &&& 0x0F#8).toNat % 16, Nat.mod_lt _ (by decide)⟩

/-- 0x050 + 5 * d: the address of the glyph of digit d (R66, R163). -/
def glyphAddr (d : Fin 16) : Word := BitVec.ofNat 16 (Config.fontBase + 5 * d.val)

/-- The three BCD digits of LD B, hundreds first, each a whole byte (R164). -/
def bcdDigits (b : Byte) : List Byte :=
  [BitVec.ofNat 8 (b.toNat / 100), BitVec.ofNat 8 (b.toNat / 10 % 10), BitVec.ofNat 8 (b.toNat % 10)]

end Sys2Proof.Machine
end

