-- ==== Sys2Proof/Machine/ControlFlow.lean ====
section
/-! DEFINITION. The control-flow instructions (40_control_flow.md). The state each is given has PC at the
instruction's address plus 2 (R120). -/

namespace Sys2Proof.Machine

/-- SYS NNN: "raise IllegalInstruction", always (R121). -/
def execSys (_nnn : Addr12) (s : State) : Host.Outcome State Fault Refusal :=
  .next (s.raise .illegalInstruction)

/-- RET: pop PC, or StackUnderflow (R122). -/
def execRet (s : State) : Host.Outcome State Fault Refusal :=
  match s.pop with
  | .error f => .next (s.raise f)
  | .ok (target, s') => .next (s'.jump target)

/-- JP NNN (R123). -/
def execJp (nnn : Addr12) (s : State) : Host.Outcome State Fault Refusal :=
  .next (s.jump (addrOperand nnn))

/-- CALL NNN: push the advanced PC and jump, or StackOverflow (R124). -/
def execCall (nnn : Addr12) (s : State) : Host.Outcome State Fault Refusal :=
  match s.push s.pc with
  | .error f => .next (s.raise f)
  | .ok s' => .next (s'.jump (addrOperand nnn))

/-- SE Vx, NN (R125). -/
def execSeImm (x : Reg) (nn : Byte) (s : State) : Host.Outcome State Fault Refusal :=
  .next (s.skipIf (s.reg x == nn))

/-- SNE Vx, NN (R126). -/
def execSneImm (x : Reg) (nn : Byte) (s : State) : Host.Outcome State Fault Refusal :=
  .next (s.skipIf (s.reg x != nn))

/-- SE Vx, Vy (R127). -/
def execSeReg (x y : Reg) (s : State) : Host.Outcome State Fault Refusal :=
  .next (s.skipIf (s.reg x == s.reg y))

/-- SNE Vx, Vy (R128). -/
def execSneReg (x y : Reg) (s : State) : Host.Outcome State Fault Refusal :=
  .next (s.skipIf (s.reg x != s.reg y))

/-- JP V0, NNN: a 16-bit sum, not reduced to 12 bits (R129). -/
def execJpV0 (nnn : Addr12) (s : State) : Host.Outcome State Fault Refusal :=
  .next (s.jump (addrOperand nnn + byteOperand (s.reg 0)))

/-- SKP Vx: skip if the key V[x] & 0x0F is down (R130). -/
def execSkp (x : Reg) (s : State) : Host.Outcome State Fault Refusal :=
  .next (s.skipIf (s.keyDown (lowNibble (s.reg x))))

/-- SKNP Vx: skip if the key V[x] & 0x0F is not down (R131). -/
def execSknp (x : Reg) (s : State) : Host.Outcome State Fault Refusal :=
  .next (s.skipIf (!s.keyDown (lowNibble (s.reg x))))

end Sys2Proof.Machine
end

