-- ==== Sys2Proof/Machine/Display.lean ====
section
/-! DEFINITION. The display instructions (43_display.md). -/

namespace Sys2Proof.Machine

/-- CLS: all pixels 0, all buckets dirty, draw-pending (R181). -/
def execCls (s : State) : Host.Outcome State Fault Refusal :=
  .next { s with
    fb := Grid.fill Config.rows Config.columns false
    dirty := Grid.fill Config.rows Config.buckets true
    drawp := true }

/-- DRW's state before its first row: the coordinates have been read, VF is 0 and DRAWP true (R182). -/
def State.beginDraw (s : State) : State := { s.setReg vf 0 with drawp := true }

/-- DRW Vx, Vy, N: the coordinates are those of before the instruction (R182). -/
def execDrw (x y : Reg) (n : Nibble) (s : State) : Host.Outcome State Fault Refusal :=
  .next (s.beginDraw.drawRows ((s.reg x).toNat % 64) ((s.reg y).toNat % 32) s.base (List.range n.toNat))

end Sys2Proof.Machine
end

