-- ==== Sys2Proof/Machine/IndexMemory.lean ====
section
/-! DEFINITION. The index-register and memory instructions (42_index_memory.md). None changes I by addressing with it
(R160). -/

namespace Sys2Proof.Machine

/-- LD I, NNN (R161). -/
def execLdI (nnn : Addr12) (s : State) : Host.Outcome State Fault Refusal :=
  .next { s with i := addrOperand nnn }

/-- ADD I, Vx: modulo 65536, no flag (R162). -/
def execAddIVx (x : Reg) (s : State) : Host.Outcome State Fault Refusal :=
  .next { s with i := s.i + byteOperand (s.reg x) }

/-- LD F, Vx: I = the glyph of the digit V[x] & 0x0F (R163). -/
def execLdFVx (x : Reg) (s : State) : Host.Outcome State Fault Refusal :=
  .next { s with i := glyphAddr (lowNibble (s.reg x)) }

/-- LD B, Vx: the BCD digits at I, I + 1, I + 2 (R164). -/
def execLdBVx (x : Reg) (s : State) : Host.Outcome State Fault Refusal :=
  .next (s.storeBytes s.base (bcdDigits (s.reg x)))

/-- LD [I], Vx: V0 to V[x] stored from I on (R165). -/
def execStoreRegs (x : Reg) (s : State) : Host.Outcome State Fault Refusal :=
  .next (s.storeBytes s.base ((regsUpTo x).map s.reg))

/-- LD Vx, [I]: V0 to V[x] loaded from I on (R166). -/
def execLoadRegs (x : Reg) (s : State) : Host.Outcome State Fault Refusal :=
  .next (s.loadBytes s.base (regsUpTo x))

end Sys2Proof.Machine
end

