-- ==== Sys2Proof/Machine/Input.lean ====
section
/-! DEFINITION. The keypad wait instruction (45_input.md). -/

namespace Sys2Proof.Machine

/-- LD Vx, K: the least pressed key's number to V[x]; with no key down PC goes back to the instruction itself
(R195). -/
def execLdVxK (x : Reg) (s : State) : Host.Outcome State Fault Refusal :=
  match s.leastKeyDown with
  | some k => .next (s.setReg x (BitVec.ofNat 8 k.val))
  | none => .next (s.jump (s.pc - 2))

end Sys2Proof.Machine
end

