-- ==== Sys2Proof/Machine/Flags.lean ====
section
/-! DEFINITION. The results and the VF values of the five flag-writing ALU operations (41_register_ops.md R153), and
the order in which they are written (R140). -/

namespace Sys2Proof.Machine

/-- A flag as the byte VF holds: 1 or 0. -/
def flagByte (c : Bool) : Byte := if c then 1 else 0

/-- "1 if s > 255 else 0": the carry out of an 8-bit sum (R147). -/
def carryFlag (a b : Byte) : Byte := flagByte (decide (a.toNat + b.toNat > 255))

/-- "1 if vx >= vy else 0": no borrow in a - b (R148, R150). -/
def noBorrowFlag (a b : Byte) : Byte := flagByte (decide (a.toNat ≥ b.toNat))

/-- vx[0]: the bit a right shift puts out (R149). -/
def bit0Flag (a : Byte) : Byte := flagByte (a.getLsbD 0)

/-- vx[7]: the bit a left shift puts out (R151). -/
def bit7Flag (a : Byte) : Byte := flagByte (a.getLsbD 7)

/-- "writes V[x] first and V[15] last, so with x = 15 the flag is what remains" (R140). -/
def State.setRegThenFlag (s : State) (x : Reg) (result flag : Byte) : State := (s.setReg x result).setReg vf flag

end Sys2Proof.Machine
end

