-- ==== Sys2Proof/Machine/RegisterOps.lean ====
section
/-! DEFINITION. The register and ALU instructions (41_register_ops.md). Operands are read before anything is written
(R140). -/

namespace Sys2Proof.Machine

/-- LD Vx, NN (R141). -/
def execLdImm (x : Reg) (nn : Byte) (s : State) : Host.Outcome State Fault Refusal :=
  .next (s.setReg x nn)

/-- ADD Vx, NN: modulo 256, no flag (R142). -/
def execAddImm (x : Reg) (nn : Byte) (s : State) : Host.Outcome State Fault Refusal :=
  .next (s.setReg x (s.reg x + nn))

/-- LD Vx, Vy (R143). -/
def execLdReg (x y : Reg) (s : State) : Host.Outcome State Fault Refusal :=
  .next (s.setReg x (s.reg y))

/-- OR Vx, Vy: VF left alone (R144). -/
def execOrReg (x y : Reg) (s : State) : Host.Outcome State Fault Refusal :=
  .next (s.setReg x (s.reg x ||| s.reg y))

/-- AND Vx, Vy: VF left alone (R145). -/
def execAndReg (x y : Reg) (s : State) : Host.Outcome State Fault Refusal :=
  .next (s.setReg x (s.reg x &&& s.reg y))

/-- XOR Vx, Vy: VF left alone (R146). -/
def execXorReg (x y : Reg) (s : State) : Host.Outcome State Fault Refusal :=
  .next (s.setReg x (s.reg x ^^^ s.reg y))

/-- ADD Vx, Vy: VF = carry out (R147). -/
def execAddReg (x y : Reg) (s : State) : Host.Outcome State Fault Refusal :=
  .next (s.setRegThenFlag x (s.reg x + s.reg y) (carryFlag (s.reg x) (s.reg y)))

/-- SUB Vx, Vy: VF = no borrow (R148). -/
def execSubReg (x y : Reg) (s : State) : Host.Outcome State Fault Refusal :=
  .next (s.setRegThenFlag x (s.reg x - s.reg y) (noBorrowFlag (s.reg x) (s.reg y)))

/-- SHR Vx: V[x] in place, the y field ignored; VF = old bit 0 (R149). -/
def execShr (x _y : Reg) (s : State) : Host.Outcome State Fault Refusal :=
  .next (s.setRegThenFlag x (s.reg x >>> 1) (bit0Flag (s.reg x)))

/-- SUBN Vx, Vy: VY - VX; VF = no borrow (R150). -/
def execSubnReg (x y : Reg) (s : State) : Host.Outcome State Fault Refusal :=
  .next (s.setRegThenFlag x (s.reg y - s.reg x) (noBorrowFlag (s.reg y) (s.reg x)))

/-- SHL Vx: V[x] in place, the y field ignored; VF = old bit 7 (R151). -/
def execShl (x _y : Reg) (s : State) : Host.Outcome State Fault Refusal :=
  .next (s.setRegThenFlag x (s.reg x <<< 1) (bit7Flag (s.reg x)))

/-- RND Vx, NN: a random byte and the mask (R152). -/
def execRnd (x : Reg) (nn : Byte) (s : State) : Host.Outcome State Fault Refusal :=
  .next (s.rand8.2.setReg x (s.rand8.1 &&& nn))

end Sys2Proof.Machine
end

