-- ==== Sys2Proof/Machine/TimersSound.lean ====
section
/-! DEFINITION. The timer and sound instructions (44_timers_sound.md). The step's tick, if it has one, comes after
(R189). -/

namespace Sys2Proof.Machine

/-- LD Vx, DT (R190). -/
def execLdVxDt (x : Reg) (s : State) : Host.Outcome State Fault Refusal :=
  .next (s.setReg x s.dt)

/-- LD DT, Vx (R191). -/
def execLdDtVx (x : Reg) (s : State) : Host.Outcome State Fault Refusal :=
  .next { s with dt := s.reg x }

/-- LD ST, Vx (R192). -/
def execLdStVx (x : Reg) (s : State) : Host.Outcome State Fault Refusal :=
  .next { s with st := s.reg x }

end Sys2Proof.Machine
end

