-- ==== Sys2Proof/Machine/Cycle.lean ====
section
/-! DEFINITION. One instruction cycle (60_exceptions.md R220), for Step.lean to call. -/

namespace Sys2Proof.Machine

/-- The end of a step after an instruction's outcome. -/
def endOutcome : Host.Outcome State Fault Refusal → Host.Outcome State Fault Refusal
  | .next s => .next s.endStep
  | .fault r => .fault r
  | .refused r => .refused r

/-- From decode on, PC already advanced: a word no row matches raises IllegalInstruction (R203); an instruction is
executed and the step ended (R220). -/
def runWord (w : Word) (s : State) : Host.Outcome State Fault Refusal :=
  match decode w with
  | .error _ => .next (s.raise .illegalInstruction)
  | .ok i => endOutcome (exec i s)

/-- One instruction cycle of a Running machine: fetch, PC + 2, decode, execute, tick. A fetch fault comes before the
advance and leaves PC as it is (R205, R220). -/
def cycle (s : State) : Host.Outcome State Fault Refusal :=
  match s.fetch with
  | .error f => .next (s.raise f)
  | .ok w => runWord w s.advancePc

/-- step(): "no-op if not Running" (R220). -/
def stepOf (s : State) : Host.Outcome State Fault Refusal :=
  if s.ms = .running then cycle s else .next s

/-- A word put at PC and PC + 1, high byte first, of a machine that is Running with a program that reaches that far:
what load_program and start leave (R212, R213, R253). At a PC above 0xFFE there is no place for it. Log entry 4. -/
def State.withProgramWord (s : State) (w : Word) : State :=
  if s.pc.toNat + 1 ≤ Config.memTop then
    { s with
      mem := (s.mem.set s.pc.toNat (highByte w)).set (s.pc.toNat + 1) (lowByte w)
      ms := .running
      fr := .noFault
      loaded := true
      romlen := max s.romlen (s.pc.toNat + 2 - Config.programBase) }
  else s

end Sys2Proof.Machine
end

