-- ==== Sys2Proof/Machine/Step.lean ====
section
/-! DEFINITION. The step of the machine (60_exceptions.md R220), and the placing of an instruction for it. -/

namespace Sys2Proof.Machine

/-- step() (R220). -/
def step (s : State) : Host.Outcome State Fault Refusal := stepOf s

/-- The state with a row's word of the opcode table as the next instruction. Log entry 4. -/
def State.withFetchWord (s : State) (nbits w : Nat) : State := s.withProgramWord (tableWord nbits w)

end Sys2Proof.Machine
end

