-- ==== Sys2Proof/Machine/Controller.lean ====
section
/-! DEFINITION. The machine controller and the other host operations but step() (60_exceptions.md section 5,
70_reset_and_hazards.md R251, R260). Each is one atomic event (R222) and answers a reply and the state after it. -/

namespace Sys2Proof.Machine

/-- What a host operation gives back (R260). -/
inductive HostReply where
  /-- ok, or nothing to say. -/
  | done
  /-- One of the four caller-misuse errors; the state is then unchanged (R210). -/
  | error (e : CallerError)
  /-- A boolean answer: a query, a key, a pixel, a dirty flag. -/
  | flag (b : Bool)
  /-- The buffer view, all 2048 pixels (R219). -/
  | buffer (g : Grid Config.rows Config.columns)
  /-- The inspection views: every state element (R232). -/
  | view (s : State)
  deriving DecidableEq, Repr

/-- FaultReason's number (R200). -/
def FaultReason.code : FaultReason → Nat
  | .noFault => 0
  | .addressOutOfRange => 1
  | .stackOverflow => 2
  | .stackUnderflow => 3
  | .illegalInstruction => 4

/-- The reset sequence of start() (R251): KEY, LOADED and ROMLEN are not touched, nor are MS, FR (which start() itself
writes, R213) and the oracle's count. -/
def State.resetSequence (s : State) : State :=
  { s with
    mem := s.mem.keepProgram s.romlen
    v := Vector.replicate 16 0
    i := 0
    pc := BitVec.ofNat 16 Config.programBase
    sp := 0
    stk := Vector.replicate Config.stackDepth 0
    dt := 0
    st := 0
    tacc := 0
    fb := Grid.fill Config.rows Config.columns false
    dirty := Grid.fill Config.rows Config.buckets false
    drawp := false }

/-- load_program(rom) (R212). -/
def State.loadProgram (s : State) (rom : List Byte) : HostReply × State :=
  if s.ms = .running then (.error .alreadyRunning, s)
  else if rom.length > Config.maxProgram then (.error .romTooLarge, s)
  else
    (.done, { s with
      mem := s.mem.setBytes Config.programBase rom
      romlen := rom.length
      loaded := true
      ms := if s.ms = .faulted then .faulted else .loaded })

/-- start() (R213). -/
def State.start (s : State) : HostReply × State :=
  if s.loaded = false then (.error .notLoaded, s)
  else if s.ms = .running then (.error .alreadyRunning, s)
  else (.done, { s.resetSequence with fr := .noFault, ms := .running })

/-- stop() (R214). -/
def State.stop (s : State) : HostReply × State :=
  match s.ms with
  | .running | .loaded | .stopped => (.done, { s with ms := .stopped })
  | .uninitialized | .faulted => (.done, s)

/-- is_running() (R215). -/
def State.isRunning (s : State) : Bool := s.ms == .running

/-- is_ready() (R215). -/
def State.isReady (s : State) : Bool := s.loaded && s.ms != .faulted

/-- sound_active() (R216). -/
def State.soundActive (s : State) : Bool := s.st != 0

/-- set_key_state(key, pressed) (R218). -/
def State.setKeyState (s : State) (k : Nat) (pressed : Bool) : HostReply × State :=
  if h : k < Config.keys then (.done, { s with key := s.key.set k pressed h }) else (.error .invalidKey, s)

/-- is_key_pressed(key) (R218). -/
def State.isKeyPressed (s : State) (k : Nat) : HostReply :=
  if h : k < Config.keys then .flag (s.keyDown ⟨k, h⟩) else .error .invalidKey

/-- read_pixel(x, y): FB[y mod 32][x mod 64] (R219). -/
def State.readPixel (s : State) (x y : Nat) : Bool := s.pixel (row y) (column x)

/-- clear_dirty(): all 256 flags false (R219). -/
def State.clearDirty (s : State) : State := { s with dirty := Grid.fill Config.rows Config.buckets false }

/-- take_draw_flag(): answers DRAWP and clears it (R217). -/
def State.takeDrawFlag (s : State) : Bool × State := (s.drawp, { s with drawp := false })

end Sys2Proof.Machine
end

