-- ==== Sys2Proof/Machine/HostInterface.lean ====
section
/-! DEFINITION. The host interface as a whole (70_reset_and_hazards.md R260): every operation, and a sequence of them
(60_exceptions.md R222). -/

namespace Sys2Proof.Machine

/-- The operations of R260. Keys and coordinates are any naturals; the dirty view is defined inside its ranges only
(R219). -/
inductive HostOp where
  | loadProgram (rom : List Byte)
  | start
  | stop
  | step
  | isRunning
  | isReady
  | soundActive
  | setKeyState (key : Nat) (pressed : Bool)
  | isKeyPressed (key : Nat)
  | readPixel (x y : Nat)
  | bufferView
  | dirtyView (y : Fin Config.rows) (b : Fin Config.buckets)
  | clearDirty
  | peekDrawFlag
  | takeDrawFlag
  | inspect
  deriving DecidableEq, Repr

/-- A host operation that is not step(): its reply and the state after it. -/
def hostEvent (s : State) : HostOp → HostReply × State
  | .loadProgram rom => s.loadProgram rom
  | .start => s.start
  | .stop => s.stop
  | .step => (.done, s)
  | .isRunning => (.flag s.isRunning, s)
  | .isReady => (.flag s.isReady, s)
  | .soundActive => (.flag s.soundActive, s)
  | .setKeyState k p => s.setKeyState k p
  | .isKeyPressed k => (s.isKeyPressed k, s)
  | .readPixel x y => (.flag (s.readPixel x y), s)
  | .bufferView => (.buffer s.fb, s)
  | .dirtyView y b => (.flag (s.isDirty y b), s)
  | .clearDirty => (.done, s.clearDirty)
  | .peekDrawFlag => (.flag s.drawp, s)
  | .takeDrawFlag => (.flag s.takeDrawFlag.1, s.takeDrawFlag.2)
  | .inspect => (.view s, s)

/-- One operation of R260: step() is the machine's step (R220), the others are hostEvent. -/
def perform (s : State) (op : HostOp) : Host.Outcome (HostReply × State) Fault Refusal :=
  match op with
  | .step =>
    match step s with
    | .next t => .next (.done, t)
    | .fault r => .fault r
    | .refused r => .refused r
  | op => .next (hostEvent s op)

/-- "All steps and all host operations on one machine form a single sequence" (R222): a sequence of operations, and the
state after it. -/
def performAll (s : State) : List HostOp → Host.Outcome State Fault Refusal
  | [] => .next s
  | op :: ops =>
    match perform s op with
    | .next (_, t) => performAll t ops
    | .fault r => .fault r
    | .refused r => .refused r

end Sys2Proof.Machine
end

