-- ==== Sys2Proof/Safety.lean ====
section
/-! DEFINITION. What claims are stated in: the invariant of the machine, what an instruction may write, and the
relations "unchanged" between two states. -/

namespace Sys2Proof.Machine

/-! ### Invariants -/

/-- What holds of the machine between operations: memory in canonical form; PC at most 0x10FE (R24); live return
addresses at most 0x1000 (R122); TACC below CPU_HZ (R36); "FR is other than None exactly when MS = Faulted" (R34);
"MS = Uninitialized exactly when LOADED is false" (R211); ROMLEN at most 0x0E00 (R35). -/
structure State.Inv (s : State) : Prop where
  memory : s.mem.wf = true
  pcRange : s.pc.toNat ≤ 0x10FE
  liveStack : ∀ k : Fin Config.stackDepth, k.val < s.sp.val → (s.stk[k.val]).toNat ≤ 0x1000
  accumulator : s.tacc < Config.cpuHz
  faultReason : s.fr ≠ .noFault ↔ s.ms = .faulted
  lifecycle : s.ms = .uninitialized ↔ s.loaded = false
  programLength : s.romlen ≤ Config.maxProgram

/-- A safe machine is not Faulted: no execution-integrity fault has been raised since the last start() (R200, R205). -/
def State.safe (s : State) : Bool := s.ms != .faulted

/-! ### Reset values -/

/-- The value of the reset sequence in every element it writes (the table of R39, R251): registers, I, timers, TACC and
every stack slot 0, PC = 0x200, an empty stack, a clear display with no dirty flag and DRAWP false, and memory 0 outside
the font and the program area of length ROMLEN, FONT in the font's region. -/
structure State.HasResetValues (s : State) : Prop where
  registers : ∀ r : Reg, s.reg r = 0
  index : s.i = 0
  programCounter : s.pc = 0x200
  stackPointer : s.sp = 0
  stackSlots : ∀ k : Fin Config.stackDepth, s.stk[k.val] = 0
  delayTimer : s.dt = 0
  soundTimer : s.st = 0
  accumulator : s.tacc = 0
  pixels : ∀ y x, s.pixel y x = false
  dirtyFlags : ∀ y b, s.isDirty y b = false
  drawPending : s.drawp = false
  belowFont : ∀ a, a < 0x050 → s.byteAt a = 0
  fontBytes : ∀ j : Fin 80, s.byteAt (0x050 + j.val) = Config.font j
  reservedBytes : ∀ a, 0x0A0 ≤ a → a < 0x200 → s.byteAt a = 0
  aboveProgram : ∀ a, 0x200 + s.romlen ≤ a → s.byteAt a = 0

/-! ### Unchanged parts -/

/-- Every general register is unchanged. -/
def SameRegs (s t : State) : Prop := ∀ r : Reg, t.reg r = s.reg r

/-- Every byte of memory is unchanged. -/
def SameMemory (s t : State) : Prop := ∀ a : Nat, t.byteAt a = s.byteAt a

/-- FB, DIRTY and DRAWP are unchanged. -/
def SameDisplay (s t : State) : Prop := t.fb = s.fb ∧ t.dirty = s.dirty ∧ t.drawp = s.drawp

/-- DT, ST and TACC are unchanged. -/
def SameTimers (s t : State) : Prop := t.dt = s.dt ∧ t.st = s.st ∧ t.tacc = s.tacc

/-- SP and every stack slot, dead ones included, are unchanged. -/
def SameStack (s t : State) : Prop := t.sp = s.sp ∧ t.stk = s.stk

/-- KEY, LOADED and ROMLEN, which no instruction writes (R260), are unchanged. -/
def SameHostSide (s t : State) : Prop := t.key = s.key ∧ t.loaded = s.loaded ∧ t.romlen = s.romlen

/-- MS and FR are unchanged. -/
def SameStatus (s t : State) : Prop := t.ms = s.ms ∧ t.fr = s.fr

/-- Two states that differ at most in DIRTY and DRAWP, which no instruction reads (R183). -/
def SameButTrackers (s t : State) : Prop := { t with dirty := s.dirty, drawp := s.drawp } = s

/-- Two states that differ at most in the stack slots at and above SP, which a program never reads (R27). -/
def SameButDeadSlots (s t : State) : Prop :=
  { t with stk := s.stk } = s ∧ ∀ k : Fin Config.stackDepth, k.val < s.sp.val → t.stk[k.val] = s.stk[k.val]

end Sys2Proof.Machine

namespace Sys2Proof

/-! ### What an instruction may write -/

/-- The general registers an instruction may write: V[x], VF where R25 lists it, V0 to V[x] for the register load. -/
def Instr.mayWriteReg : Instr → Reg → Bool
  | .ldImm x _, r | .addImm x _, r | .ldReg x _, r | .orReg x _, r | .andReg x _, r | .xorReg x _, r
  | .rnd x _, r | .ldVxDt x, r | .ldVxK x, r => r == x
  | .addReg x _, r | .subReg x _, r | .shr x _, r | .subnReg x _, r | .shl x _, r => r == x || r == vf
  | .drw _ _ _, r => r == vf
  | .loadRegs x, r => r.toNat ≤ x.toNat
  | .sys _, _ | .cls, _ | .ret, _ | .jp _, _ | .call _, _ | .seImm _ _, _ | .sneImm _ _, _ | .seReg _ _, _
  | .sneReg _ _, _ | .ldI _, _ | .jpV0 _, _ | .skp _, _ | .sknp _, _ | .ldDtVx _, _ | .ldStVx _, _
  | .addIVx _, _ | .ldFVx _, _ | .ldBVx _, _ | .storeRegs _, _ => false

/-- How many bytes from I on an instruction stores to: three for LD B, x + 1 for the register store (R164, R165). -/
def Instr.storedBytes : Instr → Nat
  | .ldBVx _ => 3
  | .storeRegs x => x.toNat + 1
  | .sys _ | .cls | .ret | .jp _ | .call _ | .seImm _ _ | .sneImm _ _ | .seReg _ _ | .ldImm _ _ | .addImm _ _
  | .ldReg _ _ | .orReg _ _ | .andReg _ _ | .xorReg _ _ | .addReg _ _ | .subReg _ _ | .shr _ _
  | .subnReg _ _ | .shl _ _ | .sneReg _ _ | .ldI _ | .jpV0 _ | .rnd _ _ | .drw _ _ _ | .skp _ | .sknp _
  | .ldVxDt _ | .ldVxK _ | .ldDtVx _ | .ldStVx _ | .addIVx _ | .ldFVx _ | .loadRegs _ => 0

/-- How many bytes from I on an instruction reads or writes as data: the accesses that can raise AddressOutOfRange
(R201). -/
def Instr.accessedBytes : Instr → Nat
  | .ldBVx _ => 3
  | .storeRegs x | .loadRegs x => x.toNat + 1
  | .drw _ _ n => n.toNat
  | .sys _ | .cls | .ret | .jp _ | .call _ | .seImm _ _ | .sneImm _ _ | .seReg _ _ | .ldImm _ _ | .addImm _ _
  | .ldReg _ _ | .orReg _ _ | .andReg _ _ | .xorReg _ _ | .addReg _ _ | .subReg _ _ | .shr _ _
  | .subnReg _ _ | .shl _ _ | .sneReg _ _ | .ldI _ | .jpV0 _ | .rnd _ _ | .skp _ | .sknp _
  | .ldVxDt _ | .ldVxK _ | .ldDtVx _ | .ldStVx _ | .addIVx _ | .ldFVx _ => 0

/-- The instructions that may leave PC other than at the address plus 2: skips, jumps, calls, returns and the wait for
a key (R23). -/
def Instr.mayMovePc : Instr → Bool
  | .ret | .jp _ | .call _ | .seImm _ _ | .sneImm _ _ | .seReg _ _ | .sneReg _ _ | .jpV0 _ | .skp _ | .sknp _
  | .ldVxK _ => true
  | .sys _ | .cls | .ldImm _ _ | .addImm _ _ | .ldReg _ _ | .orReg _ _ | .andReg _ _ | .xorReg _ _ | .addReg _ _
  | .subReg _ _ | .shr _ _ | .subnReg _ _ | .shl _ _ | .ldI _ | .rnd _ _ | .drw _ _ _ | .ldVxDt _ | .ldDtVx _
  | .ldStVx _ | .addIVx _ | .ldFVx _ | .ldBVx _ | .storeRegs _ | .loadRegs _ => false

end Sys2Proof

namespace Sys2Proof.Machine

/-! ### Words and sprites -/

/-- The rows of the table of R96, the SYS row among them: the words that raise IllegalInstruction. -/
def faultingWord (w : Word) : Bool :=
  (opField w == 0x0#4 && w != 0x00E0#16 && w != 0x00EE#16)
    || (opField w == 0x5#4 && nField w != 0x0#4)
    || (opField w == 0x8#4 && [0x8#4, 0x9#4, 0xA#4, 0xB#4, 0xC#4, 0xD#4, 0xF#4].contains (nField w))
    || (opField w == 0x9#4 && nField w != 0x0#4)
    || (opField w == 0xE#4 && !([0x9E#8, 0xA1#8].contains (nnField w)))
    || (opField w == 0xF#4
        && !([0x07#8, 0x0A#8, 0x15#8, 0x18#8, 0x1E#8, 0x29#8, 0x33#8, 0x55#8, 0x65#8].contains (nnField w)))

/-- Whether a sprite of n rows of bytes from address base on, drawn at (x0, y0), toggles pixel (x, y): the sprite bit
that lands there, both axes wrapping, bit 7 leftmost (R182). -/
def spriteCovers (s : State) (x0 y0 base n : Nat) (y : Fin Config.rows) (x : Fin Config.columns) : Bool :=
  let r := (y.val + (Config.rows - y0 % Config.rows)) % Config.rows
  let c := (x.val + (Config.columns - x0 % Config.columns)) % Config.columns
  decide (r < n) && decide (c < 8) && (s.byteAt (base + r)).getLsbD (7 - c)

end Sys2Proof.Machine
end

