-- ==== Sys2Proof/Certificates/Slice0/Obligations.lean ====
section
/-! DEFINITION. The statements for the provers, in the order of the spec's files. Each docstring names the rule it
formalises; where a clause is the spec's own decision (D<n> of 92_eei_decisions.md) or general knowledge (G<n> of
93_implementation_defined.md), it says so. `exec` is given the state with PC at the instruction's address plus 2. -/

open Sys2Proof Sys2Proof.Machine

/-! ## Encoding (30_encoding.md) -/

/-- The four words the source prints and one word of each further family decode as R95 says (patterns: G1). -/
def Obligations.DecodeOfWordsOfTheSpec : Prop :=
  decode 0x00E0#16 = .ok .cls ∧ decode 0x6005#16 = .ok (.ldImm 0 5) ∧ decode 0x7003#16 = .ok (.addImm 0 3) ∧
  decode 0x8015#16 = .ok (.subReg 0 1) ∧ decode 0x1204#16 = .ok (.jp 0x204) ∧ decode 0xF029#16 = .ok (.ldFVx 0) ∧
  decode 0xD125#16 = .ok (.drw 1 2 5) ∧ decode 0xF207#16 = .ok (.ldVxDt 2) ∧ decode 0xF10A#16 = .ok (.ldVxK 1) ∧
  decode 0x0123#16 = .ok (.sys 0x123)

/-- Every well-formed instruction's word decodes to it: no bit of an encoding is dropped (R91, R92, R95; G1, G2). -/
def Obligations.DecodeOfEncodeIsTheInstruction : Prop :=
  ∀ i : Instr, i.wf = true → decode (encode i) = .ok i

/-- A word that decodes is the word of the instruction it decodes to, which is well-formed. -/
def Obligations.EncodeOfDecodeIsTheWord : Prop :=
  ∀ (w : Word) (i : Instr), decode w = .ok i → encode i = w ∧ i.wf = true

/-- A row other than SYS applies to a word, "(w & mask) = match", exactly when the word decodes to an instruction of
that row; so no two such rows overlap (R93; strictness: D5). -/
def Obligations.RowAppliesExactlyToItsWords : Prop :=
  ∀ (w : Word) (j : Instr), (∀ nnn, j ≠ .sys nnn) →
    (w &&& j.rowMask = j.rowMatch ↔
      ∃ i, decode w = .ok i ∧ i.rowMask = j.rowMask ∧ i.rowMatch = j.rowMatch)

/-- The words of the table of R96 are exactly those that no row matches or that are a SYS (D4, D5). -/
def Obligations.WordsOfTheIllegalTable : Prop :=
  ∀ w : Word, faultingWord w = true ↔ (∃ e, decode w = .error e) ∨ ∃ nnn, decode w = .ok (.sys nnn)

/-! ## Memory (20_memory.md) -/

/-- MemRead and MemWrite: AddressOutOfRange with nothing written above 0xFFF; otherwise the byte, and a store changes
that byte alone (R62, R63). -/
def Obligations.MemReadAndMemWrite : Prop :=
  ∀ (s : State) (a : Nat) (b : Byte),
    (0xFFF < a → s.memRead a = .error .addressOutOfRange ∧ s.memWrite a b = .error .addressOutOfRange) ∧
    (a ≤ 0xFFF → s.memRead a = .ok (s.byteAt a) ∧
      ∃ t, s.memWrite a b = .ok t ∧ t.memRead a = .ok b ∧ (∀ c, c ≠ a → t.memRead c = s.memRead c) ∧
        { t with mem := s.mem } = s)

/-- The fetch combines the bytes at PC and PC + 1, high byte first; above 0xFFE it raises AddressOutOfRange, with PC
not advanced and nothing changed but FR and MS (R64). -/
def Obligations.FetchIsBigEndianAndFaultsAboveItsRange : Prop :=
  ∀ s : State,
    (s.pc.toNat ≤ 0xFFE → ∃ w, s.fetch = .ok w ∧
      w.toNat = (s.byteAt s.pc.toNat).toNat * 256 + (s.byteAt (s.pc.toNat + 1)).toNat) ∧
    (0xFFE < s.pc.toNat → s.fetch = .error .addressOutOfRange ∧
      (s.ms = .running → step s = .next { s with fr := .addressOutOfRange, ms := .faulted }))

/-- A store into the bytes of the next instruction is what the next fetch reads (R74, a derived rule). -/
def Obligations.StoreIsSeenByTheNextFetch : Prop :=
  ∀ (s t : State) (x : Reg), 1 ≤ x.toNat → s.base = s.pc.toNat → s.base + x.toNat ≤ 0xFFF →
    exec (.storeRegs x) s = .next t → t.fetch = .ok (wordOfBytes (s.reg 0) (s.reg 1))

/-! ## The step and the faults (60_exceptions.md) -/

/-- A Running machine whose bytes at PC and PC + 1 decode to an instruction executes it with PC advanced by 2, then,
unless it raised, ends the step with the prescaler (R220; instruction before tick: D3). -/
def Obligations.StepRunsTheDecodedInstruction : Prop :=
  ∀ (s : State) (i : Instr), s.ms = .running → s.pc.toNat ≤ 0xFFE →
    decode (wordOfBytes (s.byteAt s.pc.toNat) (s.byteAt (s.pc.toNat + 1))) = .ok i →
    step s = match exec i { s with pc := s.pc + 2 } with
      | .next t => .next (if t.ms = .running then t.prescale else t)
      | .fault r => .fault r
      | .refused r => .refused r

/-- Every step answers a next state: of a machine that is not Running the same one, "no-op if not Running" (R220); "a
Running machine always has a step, which executes or faults" (R264). -/
def Obligations.EveryStepAnswersANextState : Prop :=
  ∀ s : State, (∃ t, step s = .next t) ∧ (s.ms ≠ .running → step s = .next s)

/-- IllegalInstruction is raised after fetch, at decode, exactly when the word is one of the table of R96 (R203). -/
def Obligations.IllegalInstructionExactlyOnFaultingWords : Prop :=
  ∀ s t : State, s.ms = .running → s.fr = .noFault → step s = .next t →
    (t.fr = .illegalInstruction ↔ ∃ w, s.fetch = .ok w ∧ faultingWord w = true)

/-- StackOverflow is raised by CALL when SP = 16 and by nothing else; StackUnderflow by RET when SP = 0 and by nothing
else (R202). -/
def Obligations.StackFaultsOnlyFromCallAndRet : Prop :=
  ∀ s t : State, s.ms = .running → s.fr = .noFault → step s = .next t →
    (t.fr = .stackOverflow ↔ ∃ w nnn, s.fetch = .ok w ∧ decode w = .ok (.call nnn) ∧ s.sp.val = 16) ∧
    (t.fr = .stackUnderflow ↔ ∃ w, s.fetch = .ok w ∧ decode w = .ok .ret ∧ s.sp.val = 0)

/-- AddressOutOfRange is raised exactly by a fetch above 0xFFE and by a data byte I + k above 0xFFF of DRW, LD B, the
register store or the register load; no host operation but step() raises a fault (R201). -/
def Obligations.AddressOutOfRangeExactlyWhere : Prop :=
  (∀ s t : State, s.ms = .running → s.fr = .noFault → step s = .next t →
    (t.fr = .addressOutOfRange ↔
      0xFFE < s.pc.toNat ∨
      ∃ w i, s.fetch = .ok w ∧ decode w = .ok i ∧ ∃ k, k < i.accessedBytes ∧ 0xFFF < s.base + k)) ∧
  (∀ (s : State) (op : HostOp) (r : HostReply) (t : State), op ≠ .step → perform s op = .next (r, t) →
    t.fr = s.fr ∨ t.fr = .noFault)

/-- StackOverflow, StackUnderflow and IllegalInstruction are precise: but for the advance of PC (D22) and the entry
itself nothing has changed (R209). -/
def Obligations.PreciseFaultsChangeNothingElse : Prop :=
  ∀ s t : State, s.ms = .running → s.fr = .noFault → step s = .next t →
    t.fr = .stackOverflow ∨ t.fr = .stackUnderflow ∨ t.fr = .illegalInstruction →
    t = { s with pc := s.pc + 2, fr := t.fr, ms := .faulted }

/-- A step that faults ends "without a timer tick and without touching TACC" (R205). A fault-free step adds 60 to TACC,
and when that reaches CPU_HZ takes it off and ticks both timers; unless it writes a timer, it lowers that timer by at most
1 and never raises it (R220, R226; D2, D3). -/
def Obligations.StepsDriveTheTimers : Prop :=
  (∀ s t : State, s.ms = .running → step s = .next t → t.ms = .faulted → SameTimers s t) ∧
  (∀ (s t : State) (w : Word) (i : Instr), s.ms = .running → s.fetch = .ok w → decode w = .ok i →
    step s = .next t → t.ms = .running →
    t.tacc = (if Config.cpuHz ≤ s.tacc + 60 then s.tacc + 60 - Config.cpuHz else s.tacc + 60) ∧
    ((∀ x, i ≠ .ldDtVx x) → t.dt.toNat = if Config.cpuHz ≤ s.tacc + 60 then s.dt.toNat - 1 else s.dt.toNat) ∧
    ((∀ x, i ≠ .ldStVx x) → t.st.toNat = if Config.cpuHz ≤ s.tacc + 60 then s.st.toNat - 1 else s.st.toNat))

/-- One tick lowers each nonzero timer by 1, leaves a zero one at zero, and changes nothing else (R225). -/
def Obligations.TickDecrementsAndSaturates : Prop :=
  ∀ s : State,
    (0 < s.dt.toNat → s.tick.dt.toNat + 1 = s.dt.toNat) ∧ (s.dt.toNat = 0 → s.tick.dt.toNat = 0) ∧
    (0 < s.st.toNat → s.tick.st.toNat + 1 = s.st.toNat) ∧ (s.st.toNat = 0 → s.tick.st.toNat = 0) ∧
    { s.tick with dt := s.dt, st := s.st } = s

/-- After n ticks the timers are n lower, stopping at 0 (R227, of its property "after N ticks ... the timer reads 0 and
stays 0"). At any rate of at least 60, n turns of the prescaler from TACC = 0 give exactly (60 n) div CPU_HZ ticks and
TACC = (60 n) mod CPU_HZ (R226; D2). -/
def Obligations.PrescalerTicksExactly : Prop :=
  (∀ (s : State) (n : Nat),
    (State.tick^[n] s).dt.toNat = s.dt.toNat - n ∧ (State.tick^[n] s).st.toNat = s.st.toNat - n) ∧
  (∀ (hz n : Nat) (s : State), 60 ≤ hz → s.tacc = 0 →
    ((State.prescaleAt hz)^[n] s).tacc = 60 * n % hz ∧
    ((State.prescaleAt hz)^[n] s).dt.toNat = s.dt.toNat - 60 * n / hz ∧
    ((State.prescaleAt hz)^[n] s).st.toNat = s.st.toNat - 60 * n / hz)

/-! ## Invariants -/

/-- Every step keeps the invariant: canonical memory, PC at most 0x10FE, live return addresses at most 0x1000, TACC below
CPU_HZ, FR and MS and LOADED in agreement, ROMLEN in range (R24, R34, R35, R36, R122, R211). The canonical form of memory
is the model's own (log entry 6). -/
def Obligations.StepKeepsTheInvariant : Prop :=
  ∀ s t : State, s.Inv → step s = .next t → t.Inv

/-- After construction the invariant holds, every element the reset sequence writes has its reset value, MS is
Uninitialized, FR None, LOADED false, ROMLEN 0, and every key is released (R39, R252; D24, D31). -/
def Obligations.ResetMeetsTheInvariant : Prop :=
  State.reset.Inv ∧ State.reset.HasResetValues ∧ State.reset.ms = .uninitialized ∧ State.reset.fr = .noFault ∧
    State.reset.loaded = false ∧ State.reset.romlen = 0 ∧ ∀ k, State.reset.keyDown k = false

/-- Every host operation keeps the invariant (R210 to R219). -/
def Obligations.HostOperationsKeepTheInvariant : Prop :=
  ∀ (s : State) (op : HostOp) (r : HostReply) (t : State), s.Inv → perform s op = .next (r, t) → t.Inv

/-! ## What instructions leave alone (10_state.md) -/

/-- No instruction writes KEY, LOADED, ROMLEN or TACC; DT, ST, I, STK, SP, the display and the oracle's count (the model's
own field, log entry 2) are written by the instructions the spec names for them and no others; MS and FR change together,
by a fault; PC stays at the address plus 2 but for the skips, jumps, calls, returns and the wait (R23, R26 to R34). -/
def Obligations.SpecialStateIsWrittenOnlyByItsInstructions : Prop :=
  ∀ (i : Instr) (s t : State), exec i s = .next t →
    SameHostSide s t ∧ t.tacc = s.tacc ∧ (i.mayMovePc = false → t.pc = s.pc) ∧
    ((∀ x, i ≠ .ldDtVx x) → t.dt = s.dt) ∧
    ((∀ x, i ≠ .ldStVx x) → t.st = s.st) ∧
    ((∀ nnn, i ≠ .ldI nnn) → (∀ x, i ≠ .addIVx x) → (∀ x, i ≠ .ldFVx x) → t.i = s.i) ∧
    ((∀ nnn, i ≠ .call nnn) → t.stk = s.stk ∧ (i ≠ .ret → t.sp = s.sp)) ∧
    (i ≠ .cls → (∀ x y n, i ≠ .drw x y n) → SameDisplay s t) ∧
    ((∀ x nn, i ≠ .rnd x nn) → t.draws = s.draws) ∧
    (SameStatus s t ∨ (t.ms = .faulted ∧ t.fr ≠ .noFault))

/-- A register that is no destination of the instruction is unchanged: V[x], VF where R25 lists it, V0 to V[x] for the
register load are the destinations (R20, R25). -/
def Obligations.RegistersOutsideTheDestinationsAreUnchanged : Prop :=
  ∀ (i : Instr) (s t : State) (r : Reg), exec i s = .next t → i.mayWriteReg r = false → t.reg r = s.reg r

/-- Every byte of memory outside those an instruction stores to, from I on, is unchanged; all of memory, for an
instruction that stores nothing (R160, R164, R165). -/
def Obligations.MemoryOutsideTheStoredBytesIsUnchanged : Prop :=
  ∀ (i : Instr) (s t : State) (a : Nat), exec i s = .next t →
    a < s.base ∨ s.base + i.storedBytes ≤ a → t.byteAt a = s.byteAt a

/-- A pixel an instruction changes lies in a dirty bucket afterwards and DRAWP is true; no instruction clears a dirty flag
or DRAWP (R183). -/
def Obligations.ChangedPixelsAreDirtyAndDrawPending : Prop :=
  ∀ (i : Instr) (s t : State), exec i s = .next t →
    (∀ y x, t.pixel y x ≠ s.pixel y x → t.isDirty y (bucketOf x) = true ∧ t.drawp = true) ∧
    (∀ y b, s.isDirty y b = true → t.isDirty y b = true) ∧ (s.drawp = true → t.drawp = true)

/-- "No instruction reads DIRTY or DRAWP": two machines that differ in them alone step to machines that differ in them
alone (R183). -/
def Obligations.TrackersNeverSteerTheProgram : Prop :=
  ∀ s s' t t' : State, SameButTrackers s s' → step s = .next t → step s' = .next t' → SameButTrackers t t'

/-- The stack slots at and above SP "can never be read by a program": two machines that differ in them alone step to
machines that differ in them alone (R27). -/
def Obligations.DeadSlotsNeverSteerTheProgram : Prop :=
  ∀ s s' t t' : State, SameButDeadSlots s s' → step s = .next t → step s' = .next t' → SameButDeadSlots t t'

/-! ## Control flow (40_control_flow.md) -/

/-- SYS raises IllegalInstruction and changes nothing else (R121; D4). -/
def Obligations.SysRaisesIllegalInstruction : Prop :=
  ∀ (nnn : Addr12) (s : State),
    exec (.sys nnn) s = .next { s with fr := .illegalInstruction, ms := .faulted }

/-- RET with SP = 0 raises StackUnderflow; otherwise SP goes down by 1 and PC is STK[SP], at most 0x1000 where the
invariant holds (R122). -/
def Obligations.RetPopsOrUnderflows : Prop :=
  ∀ s : State,
    (s.sp.val = 0 → exec .ret s = .next { s with fr := .stackUnderflow, ms := .faulted }) ∧
    (∀ k : Fin 16, s.sp.val = k.val + 1 →
      ∃ t, exec .ret s = .next t ∧ t.sp.val = k.val ∧ t.pc = s.stk[k.val] ∧ (s.Inv → t.pc.toNat ≤ 0x1000) ∧
        { t with sp := s.sp, pc := s.pc } = s)

/-- JP sets PC to NNN and changes nothing else; the target 0xFFF faults at the next fetch (R123). -/
def Obligations.JpSetsPc : Prop :=
  ∀ (nnn : Addr12) (s : State), ∃ t, exec (.jp nnn) s = .next t ∧ t.pc.toNat = nnn.toNat ∧
    { t with pc := s.pc } = s ∧ (0xFFE < nnn.toNat → t.fetch = .error .addressOutOfRange)

/-- CALL with SP = 16 raises StackOverflow; otherwise PC goes to STK[SP], SP up by 1, and PC is NNN (R124). -/
def Obligations.CallPushesOrOverflows : Prop :=
  ∀ (nnn : Addr12) (s : State),
    (s.sp.val = 16 → exec (.call nnn) s = .next { s with fr := .stackOverflow, ms := .faulted }) ∧
    (∀ k : Fin 16, s.sp.val = k.val →
      ∃ t, exec (.call nnn) s = .next t ∧ t.stk[k.val] = s.pc ∧ t.sp.val = k.val + 1 ∧ t.pc.toNat = nnn.toNat ∧
        (∀ j : Fin 16, j ≠ k → t.stk[j.val] = s.stk[j.val]) ∧
        { t with stk := s.stk, sp := s.sp, pc := s.pc } = s)

/-- "RET comes back to the instruction after the CALL": whatever ran in between, if it left the stack as CALL did (R124, a
clause it marks as derived). -/
def Obligations.RetComesBackAfterTheCall : Prop :=
  ∀ (nnn : Addr12) (s t u : State), s.sp.val < 16 → exec (.call nnn) s = .next t → u.sp = t.sp → u.stk = t.stk →
    ∃ r, exec .ret u = .next r ∧ r.pc = s.pc ∧ r.sp = s.sp

/-- The four register skips add 2 to PC exactly when their comparison holds, and change nothing else (R125 to R128). -/
def Obligations.RegisterSkips : Prop :=
  ∀ (x y : Reg) (nn : Byte) (s : State),
    exec (.seImm x nn) s = .next { s with pc := if s.reg x = nn then s.pc + 2 else s.pc } ∧
    exec (.sneImm x nn) s = .next { s with pc := if s.reg x ≠ nn then s.pc + 2 else s.pc } ∧
    exec (.seReg x y) s = .next { s with pc := if s.reg x = s.reg y then s.pc + 2 else s.pc } ∧
    exec (.sneReg x y) s = .next { s with pc := if s.reg x ≠ s.reg y then s.pc + 2 else s.pc }

/-- JP V0 sets PC to the unreduced sum NNN + V0 and changes nothing else (R129; D12). -/
def Obligations.JpV0AddsV0 : Prop :=
  ∀ (nnn : Addr12) (s : State), ∃ t, exec (.jpV0 nnn) s = .next t ∧ t.pc.toNat = nnn.toNat + (s.reg 0).toNat ∧
    { t with pc := s.pc } = s

/-- SKP and SKNP test the key of the low four bits of V[x] and change nothing but PC (R130, R131; D15). -/
def Obligations.KeySkips : Prop :=
  ∀ (x : Reg) (k : Fin 16) (s : State), k.val = (s.reg x).toNat % 16 →
    exec (.skp x) s = .next { s with pc := if s.keyDown k = true then s.pc + 2 else s.pc } ∧
    exec (.sknp x) s = .next { s with pc := if s.keyDown k = false then s.pc + 2 else s.pc }

/-! ## Registers and ALU (41_register_ops.md) -/

/-- LD Vx, NN, ADD Vx, NN (modulo 256, no flag) and LD Vx, Vy write V[x] and nothing else (R141 to R143). -/
def Obligations.LoadsAndAddImmediate : Prop :=
  ∀ (x y : Reg) (nn : Byte) (s : State),
    (∃ t, exec (.ldImm x nn) s = .next t ∧ t.reg x = nn ∧ (∀ r, r ≠ x → t.reg r = s.reg r) ∧ { t with v := s.v } = s) ∧
    (∃ t, exec (.addImm x nn) s = .next t ∧ (t.reg x).toNat = ((s.reg x).toNat + nn.toNat) % 256 ∧
      (∀ r, r ≠ x → t.reg r = s.reg r) ∧ { t with v := s.v } = s) ∧
    (∃ t, exec (.ldReg x y) s = .next t ∧ t.reg x = s.reg y ∧ (∀ r, r ≠ x → t.reg r = s.reg r) ∧
      { t with v := s.v } = s)

/-- OR, AND and XOR write the bitwise result to V[x] and nothing else, VF included (R144 to R146; D10). -/
def Obligations.LogicLeavesVfAlone : Prop :=
  ∀ (x y : Reg) (s : State),
    (∃ t, exec (.orReg x y) s = .next t ∧
      (∀ k, (t.reg x).getLsbD k = ((s.reg x).getLsbD k || (s.reg y).getLsbD k)) ∧
      (∀ r, r ≠ x → t.reg r = s.reg r) ∧ { t with v := s.v } = s) ∧
    (∃ t, exec (.andReg x y) s = .next t ∧
      (∀ k, (t.reg x).getLsbD k = ((s.reg x).getLsbD k && (s.reg y).getLsbD k)) ∧
      (∀ r, r ≠ x → t.reg r = s.reg r) ∧ { t with v := s.v } = s) ∧
    (∃ t, exec (.xorReg x y) s = .next t ∧
      (∀ k, (t.reg x).getLsbD k = ((s.reg x).getLsbD k ^^ (s.reg y).getLsbD k)) ∧
      (∀ r, r ≠ x → t.reg r = s.reg r) ∧ { t with v := s.v } = s)

/-- ADD, SUB and SUBN: V[x] gets the result modulo 256, VF the carry or no-borrow flag; with x = 15 the flag is what
remains (R147, R148, R150; the order of the two writes: D9). -/
def Obligations.AddAndSubtractWithFlag : Prop :=
  ∀ (x y : Reg) (s : State),
    (∃ t, exec (.addReg x y) s = .next t ∧
      (t.reg vf).toNat = (if (s.reg x).toNat + (s.reg y).toNat > 255 then 1 else 0) ∧
      (x ≠ vf → (t.reg x).toNat = ((s.reg x).toNat + (s.reg y).toNat) % 256) ∧
      (∀ r, r ≠ x → r ≠ vf → t.reg r = s.reg r) ∧ { t with v := s.v } = s) ∧
    (∃ t, exec (.subReg x y) s = .next t ∧
      (t.reg vf).toNat = (if (s.reg x).toNat ≥ (s.reg y).toNat then 1 else 0) ∧
      (x ≠ vf → (t.reg x).toNat = ((s.reg x).toNat + 256 - (s.reg y).toNat) % 256) ∧
      (∀ r, r ≠ x → r ≠ vf → t.reg r = s.reg r) ∧ { t with v := s.v } = s) ∧
    (∃ t, exec (.subnReg x y) s = .next t ∧
      (t.reg vf).toNat = (if (s.reg y).toNat ≥ (s.reg x).toNat then 1 else 0) ∧
      (x ≠ vf → (t.reg x).toNat = ((s.reg y).toNat + 256 - (s.reg x).toNat) % 256) ∧
      (∀ r, r ≠ x → r ≠ vf → t.reg r = s.reg r) ∧ { t with v := s.v } = s)

/-- SHR and SHL shift V[x] in place by one, VF the bit shifted out, whatever the y field; with x = 15 the flag is what
remains (R149, R151, R153; D9, D11). -/
def Obligations.ShiftsInPlaceWithFlag : Prop :=
  ∀ (x y : Reg) (s : State),
    (∃ t, exec (.shr x y) s = .next t ∧ (t.reg vf).toNat = (s.reg x).toNat % 2 ∧
      (x ≠ vf → (t.reg x).toNat = (s.reg x).toNat / 2) ∧
      (∀ r, r ≠ x → r ≠ vf → t.reg r = s.reg r) ∧ { t with v := s.v } = s) ∧
    (∃ t, exec (.shl x y) s = .next t ∧ (t.reg vf).toNat = (s.reg x).toNat / 128 ∧
      (x ≠ vf → (t.reg x).toNat = 2 * (s.reg x).toNat % 256) ∧
      (∀ r, r ≠ x → r ≠ vf → t.reg r = s.reg r) ∧ { t with v := s.v } = s)

/-- RND asks the oracle once and writes its byte and the mask to V[x]: "V[x] & ~nn = 0" whatever the oracle yields, and
every other register is unchanged (R152; D20). The oracle's count is the model's own (log entry 2). -/
def Obligations.RndIsMasked : Prop :=
  ∀ (x : Reg) (nn : Byte) (s : State),
    ∃ t, exec (.rnd x nn) s = .next t ∧ t.reg x = Config.rand8 s.draws &&& nn ∧ t.reg x &&& ~~~nn = 0 ∧
      t.draws = s.draws + 1 ∧ (∀ r, r ≠ x → t.reg r = s.reg r) ∧ { t with v := s.v, draws := s.draws } = s

/-! ## Index and memory (42_index_memory.md) -/

/-- LD I, NNN sets I to NNN, its upper four bits 0, and changes nothing else (R161). -/
def Obligations.LdISetsI : Prop :=
  ∀ (nnn : Addr12) (s : State), ∃ t, exec (.ldI nnn) s = .next t ∧ t.i.toNat = nnn.toNat ∧ { t with i := s.i } = s

/-- ADD I, Vx adds modulo 65536 without a flag (R162; D13); LD F, Vx sets I to the glyph of the low four bits (R163;
D14); neither changes anything else. -/
def Obligations.IndexArithmetic : Prop :=
  ∀ (x : Reg) (s : State),
    (∃ t, exec (.addIVx x) s = .next t ∧ t.i.toNat = (s.i.toNat + (s.reg x).toNat) % 65536 ∧ { t with i := s.i } = s) ∧
    (∃ t, exec (.ldFVx x) s = .next t ∧ t.i.toNat = 0x050 + 5 * ((s.reg x).toNat % 16) ∧ { t with i := s.i } = s)

/-- LD B with its three bytes in range stores hundreds, tens and ones at I, I + 1, I + 2 and changes nothing else (R164;
the order of the digits: G7). -/
def Obligations.LdBStoresTheDigits : Prop :=
  ∀ (x : Reg) (s : State), s.base + 2 ≤ 0xFFF →
    ∃ t, exec (.ldBVx x) s = .next t ∧
      (t.byteAt s.base).toNat = (s.reg x).toNat / 100 ∧
      (t.byteAt (s.base + 1)).toNat = (s.reg x).toNat / 10 % 10 ∧
      (t.byteAt (s.base + 2)).toNat = (s.reg x).toNat % 10 ∧
      (∀ a, a < s.base ∨ s.base + 2 < a → t.byteAt a = s.byteAt a) ∧ { t with mem := s.mem } = s

/-- The register store with its x + 1 bytes in range stores V0 to V[x] from I on and changes nothing else, I included
(R165). -/
def Obligations.RegisterStore : Prop :=
  ∀ (x : Reg) (s : State), s.base + x.toNat ≤ 0xFFF →
    ∃ t, exec (.storeRegs x) s = .next t ∧
      (∀ r : Reg, r.toNat ≤ x.toNat → t.byteAt (s.base + r.toNat) = s.reg r) ∧
      (∀ a, a < s.base ∨ s.base + x.toNat < a → t.byteAt a = s.byteAt a) ∧ { t with mem := s.mem } = s

/-- The register load with its x + 1 bytes in range loads V0 to V[x] from I on and changes nothing else, I included
(R166). -/
def Obligations.RegisterLoad : Prop :=
  ∀ (x : Reg) (s : State), s.base + x.toNat ≤ 0xFFF →
    ∃ t, exec (.loadRegs x) s = .next t ∧
      (∀ r : Reg, r.toNat ≤ x.toNat → t.reg r = s.byteAt (s.base + r.toNat)) ∧
      (∀ r : Reg, x.toNat < r.toNat → t.reg r = s.reg r) ∧ { t with v := s.v } = s

/-- LD B, the register store and the register load that reach above 0xFFF raise AddressOutOfRange, with the bytes in range
done and every other one not (R164 to R166, R209; D18). -/
def Obligations.OutOfRangeMovesStopPartWay : Prop :=
  ∀ (x : Reg) (s : State),
    (0xFFF < s.base + 2 → ∃ t, exec (.ldBVx x) s = .next t ∧
      (∀ k, s.base + k ≤ 0xFFF → k < 3 → t.byteAt (s.base + k) = (bcdDigits (s.reg x)).getD k 0) ∧
      (∀ a, a < s.base ∨ 0xFFF < a → t.byteAt a = s.byteAt a) ∧
      { t with mem := s.mem } = { s with fr := .addressOutOfRange, ms := .faulted }) ∧
    (0xFFF < s.base + x.toNat → ∃ t, exec (.storeRegs x) s = .next t ∧
      (∀ r : Reg, s.base + r.toNat ≤ 0xFFF → t.byteAt (s.base + r.toNat) = s.reg r) ∧
      (∀ a, a < s.base ∨ 0xFFF < a → t.byteAt a = s.byteAt a) ∧
      { t with mem := s.mem } = { s with fr := .addressOutOfRange, ms := .faulted }) ∧
    (0xFFF < s.base + x.toNat → ∃ t, exec (.loadRegs x) s = .next t ∧
      (∀ r : Reg, s.base + r.toNat ≤ 0xFFF → t.reg r = s.byteAt (s.base + r.toNat)) ∧
      (∀ r : Reg, 0xFFF < s.base + r.toNat → t.reg r = s.reg r) ∧
      { t with v := s.v } = { s with fr := .addressOutOfRange, ms := .faulted })

/-! ## Display (43_display.md) -/

/-- SetPixelToggle(px, py) answers the old pixel at (px mod 64, py mod 32), flips it, marks its bucket, and changes no
other pixel or flag and nothing else (R180). -/
def Obligations.SetPixelToggleFlipsOnePixel : Prop :=
  ∀ (s : State) (px py : Nat) (y : Fin 32) (x : Fin 64) (b : Fin 8),
    y.val = py % 32 → x.val = px % 64 → b.val = x.val / 8 →
    (s.togglePixel px py).1 = s.pixel y x ∧
    (s.togglePixel px py).2.pixel y x = !s.pixel y x ∧
    (∀ y' x', (y' ≠ y ∨ x' ≠ x) → (s.togglePixel px py).2.pixel y' x' = s.pixel y' x') ∧
    (s.togglePixel px py).2.isDirty y b = true ∧
    (∀ y' b', (y' ≠ y ∨ b' ≠ b) → (s.togglePixel px py).2.isDirty y' b' = s.isDirty y' b') ∧
    { (s.togglePixel px py).2 with fb := s.fb, dirty := s.dirty } = s

/-- CLS clears every pixel, marks every bucket dirty, sets DRAWP, and changes nothing else (R181). -/
def Obligations.ClsClearsTheDisplay : Prop :=
  ∀ s : State, ∃ t, exec .cls s = .next t ∧ (∀ y x, t.pixel y x = false) ∧ (∀ y b, t.isDirty y b = true) ∧
    t.drawp = true ∧ { t with fb := s.fb, dirty := s.dirty, drawp := s.drawp } = s

/-- DRW with its n sprite bytes in range: each pixel the sprite covers is flipped and no other, its bucket is dirty, VF is
1 exactly if a set pixel was covered and else 0, DRAWP is true, and nothing else changes (R182; D19; orientation of the
sprite: G5). -/
def Obligations.DrwDrawsTheSprite : Prop :=
  ∀ (x y : Reg) (n : Nibble) (s : State), (∀ r, r < n.toNat → s.base + r ≤ 0xFFF) →
    ∃ t, exec (.drw x y n) s = .next t ∧
      (∀ py px, t.pixel py px =
        (s.pixel py px ^^ spriteCovers s (s.reg x).toNat (s.reg y).toNat s.base n.toNat py px)) ∧
      (∀ py b, t.isDirty py b = true ↔ s.isDirty py b = true ∨
        ∃ px, bucketOf px = b ∧ spriteCovers s (s.reg x).toNat (s.reg y).toNat s.base n.toNat py px = true) ∧
      (t.reg vf = 0 ∨ t.reg vf = 1) ∧
      (t.reg vf = 1 ↔ ∃ py px, s.pixel py px = true ∧
        spriteCovers s (s.reg x).toNat (s.reg y).toNat s.base n.toNat py px = true) ∧
      t.drawp = true ∧ (∀ r, r ≠ vf → t.reg r = s.reg r) ∧
      { t with v := s.v, fb := s.fb, dirty := s.dirty, drawp := s.drawp } = s

/-- DRW whose row m is the first above 0xFFF draws the m rows before it and raises AddressOutOfRange there (R182, R209;
D18). -/
def Obligations.DrwStopsAtTheFirstRowOutOfRange : Prop :=
  ∀ (x y : Reg) (m n : Nibble) (s : State), m.toNat < n.toNat → (∀ r, r < m.toNat → s.base + r ≤ 0xFFF) →
    0xFFF < s.base + m.toNat →
    ∃ t, exec (.drw x y m) s = .next t ∧
      exec (.drw x y n) s = .next { t with fr := .addressOutOfRange, ms := .faulted }

/-! ## Timers, sound and input (44_timers_sound.md, 45_input.md) -/

/-- LD Vx, DT, LD DT, Vx and LD ST, Vx move the timers and change nothing else; sound_active() then answers ST ≠ 0 (R190
to R192). -/
def Obligations.TimerInstructions : Prop :=
  ∀ (x : Reg) (s : State),
    (∃ t, exec (.ldVxDt x) s = .next t ∧ t.reg x = s.dt ∧ (∀ r, r ≠ x → t.reg r = s.reg r) ∧ { t with v := s.v } = s) ∧
    exec (.ldDtVx x) s = .next { s with dt := s.reg x } ∧
    (∃ t, exec (.ldStVx x) s = .next t ∧ t.st = s.reg x ∧ (t.soundActive = true ↔ s.reg x ≠ 0) ∧
      { t with st := s.st } = s)

/-- LD Vx, K: with no key down PC goes back by 2 and nothing else changes; otherwise V[x] gets the least pressed key and
nothing else changes (R195; which key: D16; that its number is written: G6). -/
def Obligations.WaitForKey : Prop :=
  ∀ (x : Reg) (s : State),
    ((∀ k, s.keyDown k = false) → exec (.ldVxK x) s = .next { s with pc := s.pc - 2 }) ∧
    (∀ k : Fin 16, s.keyDown k = true → (∀ j, j < k → s.keyDown j = false) →
      ∃ t, exec (.ldVxK x) s = .next t ∧ (t.reg x).toNat = k.val ∧ (∀ r, r ≠ x → t.reg r = s.reg r) ∧
        { t with v := s.v } = s)

/-! ## The controller and the host (60_exceptions.md section 5, 70_reset_and_hazards.md) -/

/-- "An operation that answers with one of them has changed no state at all", and step() answers none (R210). -/
def Obligations.RefusedHostOperationsChangeNothing : Prop :=
  (∀ (s : State) (op : HostOp) (e : CallerError) (t : State), perform s op = .next (.error e, t) → t = s) ∧
  (∀ (s : State) (e : CallerError) (t : State), perform s .step ≠ .next (.error e, t))

/-- The lifecycle table of load_program, start and stop, answers and next MS, for every MS that agrees with LOADED (R211;
D26 to D28). -/
def Obligations.LifecycleTable : Prop :=
  ∀ s : State, (s.ms = .uninitialized ↔ s.loaded = false) →
    (∀ rom : List Byte,
      (s.ms = .running → perform s (.loadProgram rom) = .next (.error .alreadyRunning, s)) ∧
      (s.ms ≠ .running → 0x0E00 < rom.length → perform s (.loadProgram rom) = .next (.error .romTooLarge, s)) ∧
      (s.ms ≠ .running → rom.length ≤ 0x0E00 → ∃ t, perform s (.loadProgram rom) = .next (.done, t) ∧
        (s.ms = .faulted → t.ms = .faulted) ∧ (s.ms ≠ .faulted → t.ms = .loaded) ∧ t.fr = s.fr)) ∧
    (s.ms = .uninitialized → perform s .start = .next (.error .notLoaded, s)) ∧
    (s.ms = .running → perform s .start = .next (.error .alreadyRunning, s)) ∧
    (s.ms = .loaded ∨ s.ms = .stopped ∨ s.ms = .faulted →
      ∃ t, perform s .start = .next (.done, t) ∧ t.ms = .running ∧ t.fr = .noFault) ∧
    (s.ms = .loaded ∨ s.ms = .running ∨ s.ms = .stopped → perform s .stop = .next (.done, { s with ms := .stopped })) ∧
    (s.ms = .uninitialized ∨ s.ms = .faulted → perform s .stop = .next (.done, s))

/-- "load_program followed by start places byte i of the ROM at memory address 0x200+i"; every other byte of memory is 0
but for FONT in the font's region, every other element has its value of the reset sequence, the keys are kept, LOADED is
true, and ROMLEN is the ROM's length (R212, R213, R251, R254; D2, D23, D24, D25). -/
def Obligations.LoadThenStartPlacesTheProgram : Prop :=
  ∀ (s : State) (rom : List Byte), s.ms ≠ .running → rom.length ≤ 0x0E00 →
    ∃ t u, perform s (.loadProgram rom) = .next (.done, t) ∧ perform t .start = .next (.done, u) ∧
      (∀ k (h : k < rom.length), u.byteAt (0x200 + k) = rom[k]) ∧ u.HasResetValues ∧
      u.ms = .running ∧ u.fr = .noFault ∧ u.loaded = true ∧ u.romlen = rom.length ∧ u.key = s.key

/-- Every start() that succeeds leaves the program area as the run before left it, gives every other byte of memory and
every element the reset sequence writes its reset value, keeps KEY, LOADED and ROMLEN, and runs with no fault reason (R213,
R251; D2, D23, D24, D25). -/
def Obligations.RestartKeepsTheProgramAreaOnly : Prop :=
  ∀ s t : State, perform s .start = .next (.done, t) →
    (∀ a, 0x200 ≤ a → a < 0x200 + s.romlen → t.byteAt a = s.byteAt a) ∧ t.HasResetValues ∧ SameHostSide s t ∧
    t.ms = .running ∧ t.fr = .noFault

/-- Faulted is left by start() alone: every other operation, step() included, keeps MS and FR (R208). -/
def Obligations.FaultedIsLeftOnlyByStart : Prop :=
  ∀ (s : State) (op : HostOp) (r : HostReply) (t : State), s.ms = .faulted → op ≠ .start →
    perform s op = .next (r, t) → SameStatus s t

/-- is_running() and is_ready() are pure queries of MS and LOADED (R215); sound_active() is a pure query of ST in every
state (R216). -/
def Obligations.StatusQueriesArePure : Prop :=
  ∀ s : State,
    (∃ b, perform s .isRunning = .next (.flag b, s) ∧ (b = true ↔ s.ms = .running)) ∧
    (∃ b, perform s .isReady = .next (.flag b, s) ∧ (b = true ↔ s.loaded = true ∧ s.ms ≠ .faulted)) ∧
    (∃ b, perform s .soundActive = .next (.flag b, s) ∧ (b = true ↔ s.st ≠ 0))

/-- set_key_state writes KEY[key] alone, or answers InvalidKey when key > 0xF; is_key_pressed answers KEY[key] or
InvalidKey (R218). -/
def Obligations.KeyOperations : Prop :=
  ∀ (s : State) (n : Nat) (p : Bool),
    (0xF < n → perform s (.setKeyState n p) = .next (.error .invalidKey, s) ∧
      perform s (.isKeyPressed n) = .next (.error .invalidKey, s)) ∧
    (∀ k : Fin 16, k.val = n →
      perform s (.isKeyPressed n) = .next (.flag (s.keyDown k), s) ∧
      ∃ t, perform s (.setKeyState n p) = .next (.done, t) ∧ t.keyDown k = p ∧
        (∀ j, j ≠ k → t.keyDown j = s.keyDown j) ∧ { t with key := s.key } = s)

/-- take_draw_flag() answers DRAWP and clears it alone; peek_draw_flag() answers it and changes nothing (R217).
read_pixel wraps both coordinates; the buffer and dirty views answer FB and DIRTY; clear_dirty() makes all 256 flags
false; nothing else changes (R219). -/
def Obligations.DisplayOperations : Prop :=
  ∀ s : State,
    (∀ (px py : Nat) (y : Fin 32) (x : Fin 64), y.val = py % 32 → x.val = px % 64 →
      perform s (.readPixel px py) = .next (.flag (s.pixel y x), s)) ∧
    perform s .takeDrawFlag = .next (.flag s.drawp, { s with drawp := false }) ∧
    perform s .peekDrawFlag = .next (.flag s.drawp, s) ∧
    perform s .bufferView = .next (.buffer s.fb, s) ∧
    (∀ y b, perform s (.dirtyView y b) = .next (.flag (s.isDirty y b), s)) ∧
    (∃ t, perform s .clearDirty = .next (.done, t) ∧ (∀ y b, t.isDirty y b = false) ∧ { t with dirty := s.dirty } = s)

/-- "The host cannot write a register, I, PC, the stack, a timer, a pixel or a memory byte outside load_program's range",
0x200 to 0x200 + length - 1, but by start() and step(); no operation but load_program writes memory at all (R260, a derived
rule; R212). -/
def Obligations.HostWritesOnlyItsOwnState : Prop :=
  ∀ (s : State) (op : HostOp) (r : HostReply) (t : State), op ≠ .step → op ≠ .start → perform s op = .next (r, t) →
    SameRegs s t ∧ t.i = s.i ∧ t.pc = s.pc ∧ SameStack s t ∧ SameTimers s t ∧ t.fb = s.fb ∧
    (∀ rom, op = .loadProgram rom → ∀ a, a < 0x200 ∨ 0x200 + rom.length ≤ a → t.byteAt a = s.byteAt a) ∧
    ((∀ rom, op ≠ .loadProgram rom) → SameMemory s t)
end

