-- ==== Sys2Proof/Laws/Memory.lean ====
section
/-! SUPPORT. Main memory: every operation keeps the canonical form, a byte reads as last written, every other byte as
before, and equal contents are equal data. -/

namespace Sys2Proof.Machine

/-! ### Reset contents (R39, R66, R251) -/

/-- The font's byte j at 0x050 + j. -/
theorem Memory.initial_font (j : Fin Config.fontLength) : Memory.initial (Config.fontBase + j.val) = Config.font j := by
  unfold Memory.initial
  rw [dif_pos ⟨Nat.le_add_right _ _, Nat.add_lt_add_left j.isLt _⟩]
  congr 1
  exact Fin.ext (Nat.add_sub_cancel_left ..)

/-- 0 outside the font. -/
theorem Memory.initial_of_not_font {a : Nat} (h : a < Config.fontBase ∨ Config.fontBase + Config.fontLength ≤ a) :
    Memory.initial a = 0 := dif_neg (by omega)

/-! ### Reading after writing -/

theorem Memory.get_erase (m : Memory) (a c : Nat) :
    (m.erase a).get c = if c = a then Memory.initial c else m.get c := by
  induction m with
  | nil => simp [Memory.erase, Memory.get]
  | cons e rest ih =>
    obtain ⟨k, b⟩ := e
    simp only [Memory.erase, List.filter_cons] at ih ⊢
    by_cases hk : k = a
    · subst hk
      by_cases hc : c = k <;> simp_all [Memory.get]
    · by_cases hc : c = k <;> simp_all [Memory.get]

theorem Memory.get_insert (m : Memory) (a c : Nat) (b : Byte) (h : ∀ e ∈ m, e.1 ≠ a) :
    (m.insert a b).get c = if c = a then b else m.get c := by
  induction m with
  | nil => simp [Memory.insert, Memory.get]
  | cons e rest ih =>
    obtain ⟨k, b'⟩ := e
    have hk : k ≠ a := h (k, b') (by simp)
    have ih := ih fun e he => h e (by simp [he])
    by_cases hak : a < k
    · simp [Memory.insert, Memory.get, hak]
    · rw [Memory.insert, if_neg hak]
      by_cases hc : c = k <;> simp_all [Memory.get]

/-- MEM[c] after MEM[a] <- b (R62, R63). -/
theorem Memory.get_set (m : Memory) (a c : Nat) (b : Byte) :
    (m.set a b).get c = if c = a then b else m.get c := by
  unfold Memory.set
  split
  · next h => rw [Memory.get_erase]; split <;> simp_all
  · rw [Memory.get_insert _ _ _ _ (by simp [Memory.erase]), Memory.get_erase]
    split <;> simp_all

theorem Memory.get_set_same (m : Memory) (a : Nat) (b : Byte) : (m.set a b).get a = b := by
  simp [Memory.get_set]

theorem Memory.get_set_other (m : Memory) {a c : Nat} (b : Byte) (h : c ≠ a) : (m.set a b).get c = m.get c := by
  simp [Memory.get_set, h]

/-- MEM[c] after bytes stored from address a on. -/
theorem Memory.get_setBytes (m : Memory) (a c : Nat) (bs : List Byte) :
    (m.setBytes a bs).get c = if a ≤ c ∧ c < a + bs.length then bs.getD (c - a) 0 else m.get c := by
  induction bs generalizing m a with
  | nil =>
    have : ¬ (a ≤ c ∧ c < a + ([] : List Byte).length) := by simp only [List.length_nil]; omega
    rw [if_neg this]; rfl
  | cons b bs ih =>
    simp only [Memory.setBytes, ih, List.length_cons, Memory.get_set]
    by_cases hc : c = a
    · subst hc
      rw [if_neg (by omega), if_pos rfl, if_pos (by omega)]
      simp
    · by_cases hr : a + 1 ≤ c ∧ c < a + 1 + bs.length
      · rw [if_pos hr, if_pos (by omega)]
        obtain ⟨n, hn⟩ : ∃ n, c - a = n + 1 := ⟨c - a - 1, by omega⟩
        rw [hn, List.getD_cons_succ]
        congr 1
        omega
      · rw [if_neg hr, if_neg hc, if_neg (by omega)]

/-- The program area stays and every other byte is at its reset contents (R251). -/
theorem Memory.get_keepProgram (m : Memory) (n c : Nat) :
    (m.keepProgram n).get c =
      if Config.programBase ≤ c ∧ c < Config.programBase + n then m.get c else Memory.initial c := by
  induction m with
  | nil => simp [Memory.keepProgram, Memory.get]
  | cons e rest ih =>
    obtain ⟨k, b⟩ := e
    simp only [Memory.keepProgram, List.filter_cons] at ih ⊢
    by_cases hk : Config.programBase ≤ k ∧ k < Config.programBase + n
    · by_cases hc : c = k <;> simp_all [Memory.get]
    · have hk' : (decide (Config.programBase ≤ k) && decide (k < Config.programBase + n)) = false := by
        simpa using hk
      by_cases hc : c = k
      · subst hc
        simp [hk', ih, hk]
      · simp [hk', ih, Memory.get, hc]

/-! ### The canonical form is kept -/

theorem Memory.wfFrom_cons (lo a : Nat) (b : Byte) (rest : Memory) :
    Memory.wfFrom lo ((a, b) :: rest) = true ↔
      lo ≤ a ∧ a ≤ Config.memTop ∧ b ≠ Memory.initial a ∧ Memory.wfFrom (a + 1) rest = true := by
  simp [Memory.wfFrom, and_assoc]

theorem Memory.wfFrom_mono {lo lo' : Nat} {m : Memory} (h : lo' ≤ lo) (hm : Memory.wfFrom lo m = true) :
    Memory.wfFrom lo' m = true := by
  cases m with
  | nil => rfl
  | cons e rest =>
    obtain ⟨a, b⟩ := e
    rw [Memory.wfFrom_cons] at hm ⊢
    exact ⟨by omega, hm.2⟩

theorem Memory.wfFrom_filter (p : Host.Cell → Bool) {lo : Nat} {m : Memory} (hm : Memory.wfFrom lo m = true) :
    Memory.wfFrom lo (m.filter p) = true := by
  induction m generalizing lo with
  | nil => rfl
  | cons e rest ih =>
    obtain ⟨a, b⟩ := e
    rw [Memory.wfFrom_cons] at hm
    rw [List.filter_cons]
    split
    · rw [Memory.wfFrom_cons]; exact ⟨hm.1, hm.2.1, hm.2.2.1, ih hm.2.2.2⟩
    · exact Memory.wfFrom_mono (by omega) (ih hm.2.2.2)

theorem Memory.wfFrom_insert {lo a : Nat} {b : Byte} {m : Memory} (hm : Memory.wfFrom lo m = true)
    (hne : ∀ e ∈ m, e.1 ≠ a) (hlo : lo ≤ a) (ha : a ≤ Config.memTop) (hb : b ≠ Memory.initial a) :
    Memory.wfFrom lo (m.insert a b) = true := by
  induction m generalizing lo with
  | nil => rw [Memory.insert, Memory.wfFrom_cons]; exact ⟨hlo, ha, hb, rfl⟩
  | cons e rest ih =>
    obtain ⟨k, c⟩ := e
    have hk : k ≠ a := hne (k, c) (by simp)
    rw [Memory.wfFrom_cons] at hm
    rw [Memory.insert]
    split
    · rw [Memory.wfFrom_cons, Memory.wfFrom_cons]
      exact ⟨hlo, ha, hb, by omega, hm.2⟩
    · rw [Memory.wfFrom_cons]
      exact ⟨hm.1, hm.2.1, hm.2.2.1, ih hm.2.2.2 (fun e he => hne e (by simp [he])) (by omega)⟩

theorem Memory.wf_set {m : Memory} {a : Nat} (b : Byte) (hm : m.wf = true) (ha : a ≤ Config.memTop) :
    (m.set a b).wf = true := by
  unfold Memory.set Memory.wf
  split
  · exact Memory.wfFrom_filter _ hm
  · next h => exact Memory.wfFrom_insert (Memory.wfFrom_filter _ hm) (by simp [Memory.erase]) (by omega) ha h

theorem Memory.wf_setBytes {m : Memory} {a : Nat} {bs : List Byte} (hm : m.wf = true)
    (ha : a + bs.length ≤ Config.memTop + 1) : (m.setBytes a bs).wf = true := by
  induction bs generalizing m a with
  | nil => exact hm
  | cons b bs ih =>
    simp only [List.length_cons] at ha
    exact ih (Memory.wf_set b hm (by omega)) (by omega)

theorem Memory.wf_keepProgram {m : Memory} (n : Nat) (hm : m.wf = true) : (m.keepProgram n).wf = true :=
  Memory.wfFrom_filter _ hm

/-! ### Equal contents are equal data -/

theorem Memory.get_of_lt {lo a : Nat} {m : Memory} (hm : Memory.wfFrom lo m = true) (h : a < lo) :
    m.get a = Memory.initial a := by
  induction m generalizing lo with
  | nil => rfl
  | cons e rest ih =>
    obtain ⟨k, b⟩ := e
    rw [Memory.wfFrom_cons] at hm
    rw [Memory.get, if_neg (by omega)]
    exact ih hm.2.2.2 (by omega)

theorem Memory.ext_from {lo : Nat} {m m' : Memory} (hm : Memory.wfFrom lo m = true)
    (hm' : Memory.wfFrom lo m' = true) (h : ∀ a, m.get a = m'.get a) : m = m' := by
  induction m generalizing lo m' with
  | nil =>
    cases m' with
    | nil => rfl
    | cons e rest =>
      obtain ⟨k, b⟩ := e
      rw [Memory.wfFrom_cons] at hm'
      have := h k
      simp only [Memory.get, if_pos] at this
      exact absurd this.symm hm'.2.2.1
  | cons e rest ih =>
    obtain ⟨k, b⟩ := e
    have hm0 := hm
    rw [Memory.wfFrom_cons] at hm
    cases m' with
    | nil =>
      have := h k
      simp only [Memory.get, if_pos] at this
      exact absurd this hm.2.2.1
    | cons e' rest' =>
      obtain ⟨k', b'⟩ := e'
      have hm0' := hm'
      rw [Memory.wfFrom_cons] at hm'
      have hkk : k = k' := by
        rcases Nat.lt_trichotomy k k' with hlt | heq | hgt
        · have h1 := h k
          rw [Memory.get, if_pos rfl, Memory.get, if_neg (by omega),
            Memory.get_of_lt hm'.2.2.2 (by omega)] at h1
          exact absurd h1 hm.2.2.1
        · exact heq
        · have h1 := h k'
          rw [Memory.get, if_neg (by omega), Memory.get_of_lt hm.2.2.2 (by omega), Memory.get, if_pos rfl] at h1
          exact absurd h1.symm hm'.2.2.1
      subst hkk
      have hbb : b = b' := by
        have := h k
        simpa [Memory.get] using this
      subst hbb
      have : rest = rest' := by
        refine ih hm.2.2.2 hm'.2.2.2 fun a => ?_
        by_cases hak : a = k
        · rw [hak, Memory.get_of_lt hm.2.2.2 (by omega), Memory.get_of_lt hm'.2.2.2 (by omega)]
        · have := h a
          simpa [Memory.get, hak] using this
      rw [this]

/-- Two memories in canonical form that read alike everywhere are the same list. -/
theorem Memory.ext {m m' : Memory} (hm : m.wf = true) (hm' : m'.wf = true) (h : ∀ a, m.get a = m'.get a) : m = m' :=
  Memory.ext_from hm hm' h

end Sys2Proof.Machine
end

