-- ==== Sys2Proof/Laws/State.lean ====
section
/-! SUPPORT. One lemma per field per update of State, true by rfl, so that no proof unfolds a record update; and the
register, byte and pixel views of each update. -/

namespace Sys2Proof.Machine

variable (s : State)

/-! ### setReg -/

@[simp] theorem State.setReg_v (r : Reg) (b : Byte) : (s.setReg r b).v = s.v.set r.toNat b r.isLt := rfl
@[simp] theorem State.setReg_i (r : Reg) (b : Byte) : (s.setReg r b).i = s.i := rfl
@[simp] theorem State.setReg_pc (r : Reg) (b : Byte) : (s.setReg r b).pc = s.pc := rfl
@[simp] theorem State.setReg_sp (r : Reg) (b : Byte) : (s.setReg r b).sp = s.sp := rfl
@[simp] theorem State.setReg_stk (r : Reg) (b : Byte) : (s.setReg r b).stk = s.stk := rfl
@[simp] theorem State.setReg_dt (r : Reg) (b : Byte) : (s.setReg r b).dt = s.dt := rfl
@[simp] theorem State.setReg_st (r : Reg) (b : Byte) : (s.setReg r b).st = s.st := rfl
@[simp] theorem State.setReg_tacc (r : Reg) (b : Byte) : (s.setReg r b).tacc = s.tacc := rfl
@[simp] theorem State.setReg_mem (r : Reg) (b : Byte) : (s.setReg r b).mem = s.mem := rfl
@[simp] theorem State.setReg_fb (r : Reg) (b : Byte) : (s.setReg r b).fb = s.fb := rfl
@[simp] theorem State.setReg_dirty (r : Reg) (b : Byte) : (s.setReg r b).dirty = s.dirty := rfl
@[simp] theorem State.setReg_drawp (r : Reg) (b : Byte) : (s.setReg r b).drawp = s.drawp := rfl
@[simp] theorem State.setReg_key (r : Reg) (b : Byte) : (s.setReg r b).key = s.key := rfl
@[simp] theorem State.setReg_ms (r : Reg) (b : Byte) : (s.setReg r b).ms = s.ms := rfl
@[simp] theorem State.setReg_fr (r : Reg) (b : Byte) : (s.setReg r b).fr = s.fr := rfl
@[simp] theorem State.setReg_loaded (r : Reg) (b : Byte) : (s.setReg r b).loaded = s.loaded := rfl
@[simp] theorem State.setReg_romlen (r : Reg) (b : Byte) : (s.setReg r b).romlen = s.romlen := rfl
@[simp] theorem State.setReg_draws (r : Reg) (b : Byte) : (s.setReg r b).draws = s.draws := rfl

@[simp] theorem State.setReg_byteAt (r : Reg) (b : Byte) (a : Nat) : (s.setReg r b).byteAt a = s.byteAt a := rfl
@[simp] theorem State.setReg_pixel (r : Reg) (b : Byte) (y : Fin Config.rows) (x : Fin Config.columns) : (s.setReg r b).pixel y x = s.pixel y x := rfl
@[simp] theorem State.setReg_isDirty (r : Reg) (b : Byte) (y : Fin Config.rows) (b' : Fin Config.buckets) : (s.setReg r b).isDirty y b' = s.isDirty y b' := rfl
@[simp] theorem State.setReg_keyDown (r : Reg) (b : Byte) (k : Fin Config.keys) : (s.setReg r b).keyDown k = s.keyDown k := rfl

/-! ### setRegThenFlag -/

@[simp] theorem State.setRegThenFlag_i (x : Reg) (b f : Byte) : (s.setRegThenFlag x b f).i = s.i := rfl
@[simp] theorem State.setRegThenFlag_pc (x : Reg) (b f : Byte) : (s.setRegThenFlag x b f).pc = s.pc := rfl
@[simp] theorem State.setRegThenFlag_sp (x : Reg) (b f : Byte) : (s.setRegThenFlag x b f).sp = s.sp := rfl
@[simp] theorem State.setRegThenFlag_stk (x : Reg) (b f : Byte) : (s.setRegThenFlag x b f).stk = s.stk := rfl
@[simp] theorem State.setRegThenFlag_dt (x : Reg) (b f : Byte) : (s.setRegThenFlag x b f).dt = s.dt := rfl
@[simp] theorem State.setRegThenFlag_st (x : Reg) (b f : Byte) : (s.setRegThenFlag x b f).st = s.st := rfl
@[simp] theorem State.setRegThenFlag_tacc (x : Reg) (b f : Byte) : (s.setRegThenFlag x b f).tacc = s.tacc := rfl
@[simp] theorem State.setRegThenFlag_mem (x : Reg) (b f : Byte) : (s.setRegThenFlag x b f).mem = s.mem := rfl
@[simp] theorem State.setRegThenFlag_fb (x : Reg) (b f : Byte) : (s.setRegThenFlag x b f).fb = s.fb := rfl
@[simp] theorem State.setRegThenFlag_dirty (x : Reg) (b f : Byte) : (s.setRegThenFlag x b f).dirty = s.dirty := rfl
@[simp] theorem State.setRegThenFlag_drawp (x : Reg) (b f : Byte) : (s.setRegThenFlag x b f).drawp = s.drawp := rfl
@[simp] theorem State.setRegThenFlag_key (x : Reg) (b f : Byte) : (s.setRegThenFlag x b f).key = s.key := rfl
@[simp] theorem State.setRegThenFlag_ms (x : Reg) (b f : Byte) : (s.setRegThenFlag x b f).ms = s.ms := rfl
@[simp] theorem State.setRegThenFlag_fr (x : Reg) (b f : Byte) : (s.setRegThenFlag x b f).fr = s.fr := rfl
@[simp] theorem State.setRegThenFlag_loaded (x : Reg) (b f : Byte) : (s.setRegThenFlag x b f).loaded = s.loaded := rfl
@[simp] theorem State.setRegThenFlag_romlen (x : Reg) (b f : Byte) : (s.setRegThenFlag x b f).romlen = s.romlen := rfl
@[simp] theorem State.setRegThenFlag_draws (x : Reg) (b f : Byte) : (s.setRegThenFlag x b f).draws = s.draws := rfl

@[simp] theorem State.setRegThenFlag_byteAt (x : Reg) (b f : Byte) (a : Nat) : (s.setRegThenFlag x b f).byteAt a = s.byteAt a := rfl
@[simp] theorem State.setRegThenFlag_pixel (x : Reg) (b f : Byte) (y : Fin Config.rows) (x' : Fin Config.columns) : (s.setRegThenFlag x b f).pixel y x' = s.pixel y x' := rfl
@[simp] theorem State.setRegThenFlag_isDirty (x : Reg) (b f : Byte) (y : Fin Config.rows) (b' : Fin Config.buckets) : (s.setRegThenFlag x b f).isDirty y b' = s.isDirty y b' := rfl
@[simp] theorem State.setRegThenFlag_keyDown (x : Reg) (b f : Byte) (k : Fin Config.keys) : (s.setRegThenFlag x b f).keyDown k = s.keyDown k := rfl

/-! ### jump -/

@[simp] theorem State.jump_v (w : Word) : (s.jump w).v = s.v := rfl
@[simp] theorem State.jump_i (w : Word) : (s.jump w).i = s.i := rfl
@[simp] theorem State.jump_pc (w : Word) : (s.jump w).pc = w := rfl
@[simp] theorem State.jump_sp (w : Word) : (s.jump w).sp = s.sp := rfl
@[simp] theorem State.jump_stk (w : Word) : (s.jump w).stk = s.stk := rfl
@[simp] theorem State.jump_dt (w : Word) : (s.jump w).dt = s.dt := rfl
@[simp] theorem State.jump_st (w : Word) : (s.jump w).st = s.st := rfl
@[simp] theorem State.jump_tacc (w : Word) : (s.jump w).tacc = s.tacc := rfl
@[simp] theorem State.jump_mem (w : Word) : (s.jump w).mem = s.mem := rfl
@[simp] theorem State.jump_fb (w : Word) : (s.jump w).fb = s.fb := rfl
@[simp] theorem State.jump_dirty (w : Word) : (s.jump w).dirty = s.dirty := rfl
@[simp] theorem State.jump_drawp (w : Word) : (s.jump w).drawp = s.drawp := rfl
@[simp] theorem State.jump_key (w : Word) : (s.jump w).key = s.key := rfl
@[simp] theorem State.jump_ms (w : Word) : (s.jump w).ms = s.ms := rfl
@[simp] theorem State.jump_fr (w : Word) : (s.jump w).fr = s.fr := rfl
@[simp] theorem State.jump_loaded (w : Word) : (s.jump w).loaded = s.loaded := rfl
@[simp] theorem State.jump_romlen (w : Word) : (s.jump w).romlen = s.romlen := rfl
@[simp] theorem State.jump_draws (w : Word) : (s.jump w).draws = s.draws := rfl

@[simp] theorem State.jump_reg (w : Word) (q : Reg) : (s.jump w).reg q = s.reg q := rfl
@[simp] theorem State.jump_byteAt (w : Word) (a : Nat) : (s.jump w).byteAt a = s.byteAt a := rfl
@[simp] theorem State.jump_pixel (w : Word) (y : Fin Config.rows) (x : Fin Config.columns) : (s.jump w).pixel y x = s.pixel y x := rfl
@[simp] theorem State.jump_isDirty (w : Word) (y : Fin Config.rows) (b' : Fin Config.buckets) : (s.jump w).isDirty y b' = s.isDirty y b' := rfl
@[simp] theorem State.jump_keyDown (w : Word) (k : Fin Config.keys) : (s.jump w).keyDown k = s.keyDown k := rfl

/-! ### advancePc -/

@[simp] theorem State.advancePc_v : (s.advancePc).v = s.v := rfl
@[simp] theorem State.advancePc_i : (s.advancePc).i = s.i := rfl
@[simp] theorem State.advancePc_pc : (s.advancePc).pc = s.pc + 2 := rfl
@[simp] theorem State.advancePc_sp : (s.advancePc).sp = s.sp := rfl
@[simp] theorem State.advancePc_stk : (s.advancePc).stk = s.stk := rfl
@[simp] theorem State.advancePc_dt : (s.advancePc).dt = s.dt := rfl
@[simp] theorem State.advancePc_st : (s.advancePc).st = s.st := rfl
@[simp] theorem State.advancePc_tacc : (s.advancePc).tacc = s.tacc := rfl
@[simp] theorem State.advancePc_mem : (s.advancePc).mem = s.mem := rfl
@[simp] theorem State.advancePc_fb : (s.advancePc).fb = s.fb := rfl
@[simp] theorem State.advancePc_dirty : (s.advancePc).dirty = s.dirty := rfl
@[simp] theorem State.advancePc_drawp : (s.advancePc).drawp = s.drawp := rfl
@[simp] theorem State.advancePc_key : (s.advancePc).key = s.key := rfl
@[simp] theorem State.advancePc_ms : (s.advancePc).ms = s.ms := rfl
@[simp] theorem State.advancePc_fr : (s.advancePc).fr = s.fr := rfl
@[simp] theorem State.advancePc_loaded : (s.advancePc).loaded = s.loaded := rfl
@[simp] theorem State.advancePc_romlen : (s.advancePc).romlen = s.romlen := rfl
@[simp] theorem State.advancePc_draws : (s.advancePc).draws = s.draws := rfl

@[simp] theorem State.advancePc_reg (q : Reg) : (s.advancePc).reg q = s.reg q := rfl
@[simp] theorem State.advancePc_byteAt (a : Nat) : (s.advancePc).byteAt a = s.byteAt a := rfl
@[simp] theorem State.advancePc_pixel (y : Fin Config.rows) (x : Fin Config.columns) : (s.advancePc).pixel y x = s.pixel y x := rfl
@[simp] theorem State.advancePc_isDirty (y : Fin Config.rows) (b' : Fin Config.buckets) : (s.advancePc).isDirty y b' = s.isDirty y b' := rfl
@[simp] theorem State.advancePc_keyDown (k : Fin Config.keys) : (s.advancePc).keyDown k = s.keyDown k := rfl

/-! ### raise -/

@[simp] theorem State.raise_v (f : FaultReason) : (s.raise f).v = s.v := rfl
@[simp] theorem State.raise_i (f : FaultReason) : (s.raise f).i = s.i := rfl
@[simp] theorem State.raise_pc (f : FaultReason) : (s.raise f).pc = s.pc := rfl
@[simp] theorem State.raise_sp (f : FaultReason) : (s.raise f).sp = s.sp := rfl
@[simp] theorem State.raise_stk (f : FaultReason) : (s.raise f).stk = s.stk := rfl
@[simp] theorem State.raise_dt (f : FaultReason) : (s.raise f).dt = s.dt := rfl
@[simp] theorem State.raise_st (f : FaultReason) : (s.raise f).st = s.st := rfl
@[simp] theorem State.raise_tacc (f : FaultReason) : (s.raise f).tacc = s.tacc := rfl
@[simp] theorem State.raise_mem (f : FaultReason) : (s.raise f).mem = s.mem := rfl
@[simp] theorem State.raise_fb (f : FaultReason) : (s.raise f).fb = s.fb := rfl
@[simp] theorem State.raise_dirty (f : FaultReason) : (s.raise f).dirty = s.dirty := rfl
@[simp] theorem State.raise_drawp (f : FaultReason) : (s.raise f).drawp = s.drawp := rfl
@[simp] theorem State.raise_key (f : FaultReason) : (s.raise f).key = s.key := rfl
@[simp] theorem State.raise_ms (f : FaultReason) : (s.raise f).ms = .faulted := rfl
@[simp] theorem State.raise_fr (f : FaultReason) : (s.raise f).fr = f := rfl
@[simp] theorem State.raise_loaded (f : FaultReason) : (s.raise f).loaded = s.loaded := rfl
@[simp] theorem State.raise_romlen (f : FaultReason) : (s.raise f).romlen = s.romlen := rfl
@[simp] theorem State.raise_draws (f : FaultReason) : (s.raise f).draws = s.draws := rfl

@[simp] theorem State.raise_reg (f : FaultReason) (q : Reg) : (s.raise f).reg q = s.reg q := rfl
@[simp] theorem State.raise_byteAt (f : FaultReason) (a : Nat) : (s.raise f).byteAt a = s.byteAt a := rfl
@[simp] theorem State.raise_pixel (f : FaultReason) (y : Fin Config.rows) (x : Fin Config.columns) : (s.raise f).pixel y x = s.pixel y x := rfl
@[simp] theorem State.raise_isDirty (f : FaultReason) (y : Fin Config.rows) (b' : Fin Config.buckets) : (s.raise f).isDirty y b' = s.isDirty y b' := rfl
@[simp] theorem State.raise_keyDown (f : FaultReason) (k : Fin Config.keys) : (s.raise f).keyDown k = s.keyDown k := rfl

/-! ### beginDraw -/

@[simp] theorem State.beginDraw_i : (s.beginDraw).i = s.i := rfl
@[simp] theorem State.beginDraw_pc : (s.beginDraw).pc = s.pc := rfl
@[simp] theorem State.beginDraw_sp : (s.beginDraw).sp = s.sp := rfl
@[simp] theorem State.beginDraw_stk : (s.beginDraw).stk = s.stk := rfl
@[simp] theorem State.beginDraw_dt : (s.beginDraw).dt = s.dt := rfl
@[simp] theorem State.beginDraw_st : (s.beginDraw).st = s.st := rfl
@[simp] theorem State.beginDraw_tacc : (s.beginDraw).tacc = s.tacc := rfl
@[simp] theorem State.beginDraw_mem : (s.beginDraw).mem = s.mem := rfl
@[simp] theorem State.beginDraw_fb : (s.beginDraw).fb = s.fb := rfl
@[simp] theorem State.beginDraw_dirty : (s.beginDraw).dirty = s.dirty := rfl
@[simp] theorem State.beginDraw_drawp : (s.beginDraw).drawp = true := rfl
@[simp] theorem State.beginDraw_key : (s.beginDraw).key = s.key := rfl
@[simp] theorem State.beginDraw_ms : (s.beginDraw).ms = s.ms := rfl
@[simp] theorem State.beginDraw_fr : (s.beginDraw).fr = s.fr := rfl
@[simp] theorem State.beginDraw_loaded : (s.beginDraw).loaded = s.loaded := rfl
@[simp] theorem State.beginDraw_romlen : (s.beginDraw).romlen = s.romlen := rfl
@[simp] theorem State.beginDraw_draws : (s.beginDraw).draws = s.draws := rfl

@[simp] theorem State.beginDraw_byteAt (a : Nat) : (s.beginDraw).byteAt a = s.byteAt a := rfl
@[simp] theorem State.beginDraw_pixel (y : Fin Config.rows) (x : Fin Config.columns) : (s.beginDraw).pixel y x = s.pixel y x := rfl
@[simp] theorem State.beginDraw_isDirty (y : Fin Config.rows) (b' : Fin Config.buckets) : (s.beginDraw).isDirty y b' = s.isDirty y b' := rfl
@[simp] theorem State.beginDraw_keyDown (k : Fin Config.keys) : (s.beginDraw).keyDown k = s.keyDown k := rfl

/-! ### togglePixel -/

@[simp] theorem State.togglePixel_snd_v (px py : Nat) : ((s.togglePixel px py).2).v = s.v := rfl
@[simp] theorem State.togglePixel_snd_i (px py : Nat) : ((s.togglePixel px py).2).i = s.i := rfl
@[simp] theorem State.togglePixel_snd_pc (px py : Nat) : ((s.togglePixel px py).2).pc = s.pc := rfl
@[simp] theorem State.togglePixel_snd_sp (px py : Nat) : ((s.togglePixel px py).2).sp = s.sp := rfl
@[simp] theorem State.togglePixel_snd_stk (px py : Nat) : ((s.togglePixel px py).2).stk = s.stk := rfl
@[simp] theorem State.togglePixel_snd_dt (px py : Nat) : ((s.togglePixel px py).2).dt = s.dt := rfl
@[simp] theorem State.togglePixel_snd_st (px py : Nat) : ((s.togglePixel px py).2).st = s.st := rfl
@[simp] theorem State.togglePixel_snd_tacc (px py : Nat) : ((s.togglePixel px py).2).tacc = s.tacc := rfl
@[simp] theorem State.togglePixel_snd_mem (px py : Nat) : ((s.togglePixel px py).2).mem = s.mem := rfl
@[simp] theorem State.togglePixel_snd_fb (px py : Nat) : ((s.togglePixel px py).2).fb = s.fb.set (row py) (column px) (!s.pixel (row py) (column px)) := rfl
@[simp] theorem State.togglePixel_snd_dirty (px py : Nat) : ((s.togglePixel px py).2).dirty = s.dirty.set (row py) (bucketOf (column px)) true := rfl
@[simp] theorem State.togglePixel_snd_drawp (px py : Nat) : ((s.togglePixel px py).2).drawp = s.drawp := rfl
@[simp] theorem State.togglePixel_snd_key (px py : Nat) : ((s.togglePixel px py).2).key = s.key := rfl
@[simp] theorem State.togglePixel_snd_ms (px py : Nat) : ((s.togglePixel px py).2).ms = s.ms := rfl
@[simp] theorem State.togglePixel_snd_fr (px py : Nat) : ((s.togglePixel px py).2).fr = s.fr := rfl
@[simp] theorem State.togglePixel_snd_loaded (px py : Nat) : ((s.togglePixel px py).2).loaded = s.loaded := rfl
@[simp] theorem State.togglePixel_snd_romlen (px py : Nat) : ((s.togglePixel px py).2).romlen = s.romlen := rfl
@[simp] theorem State.togglePixel_snd_draws (px py : Nat) : ((s.togglePixel px py).2).draws = s.draws := rfl

@[simp] theorem State.togglePixel_snd_reg (px py : Nat) (q : Reg) : ((s.togglePixel px py).2).reg q = s.reg q := rfl
@[simp] theorem State.togglePixel_snd_byteAt (px py : Nat) (a : Nat) : ((s.togglePixel px py).2).byteAt a = s.byteAt a := rfl
@[simp] theorem State.togglePixel_snd_keyDown (px py : Nat) (k : Fin Config.keys) : ((s.togglePixel px py).2).keyDown k = s.keyDown k := rfl

/-! ### rand8 -/

@[simp] theorem State.rand8_snd_v : (s.rand8.2).v = s.v := rfl
@[simp] theorem State.rand8_snd_i : (s.rand8.2).i = s.i := rfl
@[simp] theorem State.rand8_snd_pc : (s.rand8.2).pc = s.pc := rfl
@[simp] theorem State.rand8_snd_sp : (s.rand8.2).sp = s.sp := rfl
@[simp] theorem State.rand8_snd_stk : (s.rand8.2).stk = s.stk := rfl
@[simp] theorem State.rand8_snd_dt : (s.rand8.2).dt = s.dt := rfl
@[simp] theorem State.rand8_snd_st : (s.rand8.2).st = s.st := rfl
@[simp] theorem State.rand8_snd_tacc : (s.rand8.2).tacc = s.tacc := rfl
@[simp] theorem State.rand8_snd_mem : (s.rand8.2).mem = s.mem := rfl
@[simp] theorem State.rand8_snd_fb : (s.rand8.2).fb = s.fb := rfl
@[simp] theorem State.rand8_snd_dirty : (s.rand8.2).dirty = s.dirty := rfl
@[simp] theorem State.rand8_snd_drawp : (s.rand8.2).drawp = s.drawp := rfl
@[simp] theorem State.rand8_snd_key : (s.rand8.2).key = s.key := rfl
@[simp] theorem State.rand8_snd_ms : (s.rand8.2).ms = s.ms := rfl
@[simp] theorem State.rand8_snd_fr : (s.rand8.2).fr = s.fr := rfl
@[simp] theorem State.rand8_snd_loaded : (s.rand8.2).loaded = s.loaded := rfl
@[simp] theorem State.rand8_snd_romlen : (s.rand8.2).romlen = s.romlen := rfl
@[simp] theorem State.rand8_snd_draws : (s.rand8.2).draws = s.draws + 1 := rfl

@[simp] theorem State.rand8_snd_reg (q : Reg) : (s.rand8.2).reg q = s.reg q := rfl
@[simp] theorem State.rand8_snd_byteAt (a : Nat) : (s.rand8.2).byteAt a = s.byteAt a := rfl
@[simp] theorem State.rand8_snd_pixel (y : Fin Config.rows) (x : Fin Config.columns) : (s.rand8.2).pixel y x = s.pixel y x := rfl
@[simp] theorem State.rand8_snd_isDirty (y : Fin Config.rows) (b' : Fin Config.buckets) : (s.rand8.2).isDirty y b' = s.isDirty y b' := rfl
@[simp] theorem State.rand8_snd_keyDown (k : Fin Config.keys) : (s.rand8.2).keyDown k = s.keyDown k := rfl

/-! ### tick -/

@[simp] theorem State.tick_v : (s.tick).v = s.v := rfl
@[simp] theorem State.tick_i : (s.tick).i = s.i := rfl
@[simp] theorem State.tick_pc : (s.tick).pc = s.pc := rfl
@[simp] theorem State.tick_sp : (s.tick).sp = s.sp := rfl
@[simp] theorem State.tick_stk : (s.tick).stk = s.stk := rfl
@[simp] theorem State.tick_dt : (s.tick).dt = countDown s.dt := rfl
@[simp] theorem State.tick_st : (s.tick).st = countDown s.st := rfl
@[simp] theorem State.tick_tacc : (s.tick).tacc = s.tacc := rfl
@[simp] theorem State.tick_mem : (s.tick).mem = s.mem := rfl
@[simp] theorem State.tick_fb : (s.tick).fb = s.fb := rfl
@[simp] theorem State.tick_dirty : (s.tick).dirty = s.dirty := rfl
@[simp] theorem State.tick_drawp : (s.tick).drawp = s.drawp := rfl
@[simp] theorem State.tick_key : (s.tick).key = s.key := rfl
@[simp] theorem State.tick_ms : (s.tick).ms = s.ms := rfl
@[simp] theorem State.tick_fr : (s.tick).fr = s.fr := rfl
@[simp] theorem State.tick_loaded : (s.tick).loaded = s.loaded := rfl
@[simp] theorem State.tick_romlen : (s.tick).romlen = s.romlen := rfl
@[simp] theorem State.tick_draws : (s.tick).draws = s.draws := rfl

@[simp] theorem State.tick_reg (q : Reg) : (s.tick).reg q = s.reg q := rfl
@[simp] theorem State.tick_byteAt (a : Nat) : (s.tick).byteAt a = s.byteAt a := rfl
@[simp] theorem State.tick_pixel (y : Fin Config.rows) (x : Fin Config.columns) : (s.tick).pixel y x = s.pixel y x := rfl
@[simp] theorem State.tick_isDirty (y : Fin Config.rows) (b' : Fin Config.buckets) : (s.tick).isDirty y b' = s.isDirty y b' := rfl
@[simp] theorem State.tick_keyDown (k : Fin Config.keys) : (s.tick).keyDown k = s.keyDown k := rfl

/-! ### prescaleAt -/

@[simp] theorem State.prescaleAt_v (hz : Nat) : (s.prescaleAt hz).v = s.v := rfl
@[simp] theorem State.prescaleAt_i (hz : Nat) : (s.prescaleAt hz).i = s.i := rfl
@[simp] theorem State.prescaleAt_pc (hz : Nat) : (s.prescaleAt hz).pc = s.pc := rfl
@[simp] theorem State.prescaleAt_sp (hz : Nat) : (s.prescaleAt hz).sp = s.sp := rfl
@[simp] theorem State.prescaleAt_stk (hz : Nat) : (s.prescaleAt hz).stk = s.stk := rfl
@[simp] theorem State.prescaleAt_dt (hz : Nat) : (s.prescaleAt hz).dt = if hz ≤ s.tacc + Config.timerHz then countDown s.dt else s.dt := rfl
@[simp] theorem State.prescaleAt_st (hz : Nat) : (s.prescaleAt hz).st = if hz ≤ s.tacc + Config.timerHz then countDown s.st else s.st := rfl
@[simp] theorem State.prescaleAt_tacc (hz : Nat) : (s.prescaleAt hz).tacc = if hz ≤ s.tacc + Config.timerHz then s.tacc + Config.timerHz - hz else s.tacc + Config.timerHz := rfl
@[simp] theorem State.prescaleAt_mem (hz : Nat) : (s.prescaleAt hz).mem = s.mem := rfl
@[simp] theorem State.prescaleAt_fb (hz : Nat) : (s.prescaleAt hz).fb = s.fb := rfl
@[simp] theorem State.prescaleAt_dirty (hz : Nat) : (s.prescaleAt hz).dirty = s.dirty := rfl
@[simp] theorem State.prescaleAt_drawp (hz : Nat) : (s.prescaleAt hz).drawp = s.drawp := rfl
@[simp] theorem State.prescaleAt_key (hz : Nat) : (s.prescaleAt hz).key = s.key := rfl
@[simp] theorem State.prescaleAt_ms (hz : Nat) : (s.prescaleAt hz).ms = s.ms := rfl
@[simp] theorem State.prescaleAt_fr (hz : Nat) : (s.prescaleAt hz).fr = s.fr := rfl
@[simp] theorem State.prescaleAt_loaded (hz : Nat) : (s.prescaleAt hz).loaded = s.loaded := rfl
@[simp] theorem State.prescaleAt_romlen (hz : Nat) : (s.prescaleAt hz).romlen = s.romlen := rfl
@[simp] theorem State.prescaleAt_draws (hz : Nat) : (s.prescaleAt hz).draws = s.draws := rfl

@[simp] theorem State.prescaleAt_reg (hz : Nat) (q : Reg) : (s.prescaleAt hz).reg q = s.reg q := rfl
@[simp] theorem State.prescaleAt_byteAt (hz : Nat) (a : Nat) : (s.prescaleAt hz).byteAt a = s.byteAt a := rfl
@[simp] theorem State.prescaleAt_pixel (hz : Nat) (y : Fin Config.rows) (x : Fin Config.columns) : (s.prescaleAt hz).pixel y x = s.pixel y x := rfl
@[simp] theorem State.prescaleAt_isDirty (hz : Nat) (y : Fin Config.rows) (b' : Fin Config.buckets) : (s.prescaleAt hz).isDirty y b' = s.isDirty y b' := rfl
@[simp] theorem State.prescaleAt_keyDown (hz : Nat) (k : Fin Config.keys) : (s.prescaleAt hz).keyDown k = s.keyDown k := rfl

/-! ### clearDirty -/

@[simp] theorem State.clearDirty_v : (s.clearDirty).v = s.v := rfl
@[simp] theorem State.clearDirty_i : (s.clearDirty).i = s.i := rfl
@[simp] theorem State.clearDirty_pc : (s.clearDirty).pc = s.pc := rfl
@[simp] theorem State.clearDirty_sp : (s.clearDirty).sp = s.sp := rfl
@[simp] theorem State.clearDirty_stk : (s.clearDirty).stk = s.stk := rfl
@[simp] theorem State.clearDirty_dt : (s.clearDirty).dt = s.dt := rfl
@[simp] theorem State.clearDirty_st : (s.clearDirty).st = s.st := rfl
@[simp] theorem State.clearDirty_tacc : (s.clearDirty).tacc = s.tacc := rfl
@[simp] theorem State.clearDirty_mem : (s.clearDirty).mem = s.mem := rfl
@[simp] theorem State.clearDirty_fb : (s.clearDirty).fb = s.fb := rfl
@[simp] theorem State.clearDirty_dirty : (s.clearDirty).dirty = Grid.fill Config.rows Config.buckets false := rfl
@[simp] theorem State.clearDirty_drawp : (s.clearDirty).drawp = s.drawp := rfl
@[simp] theorem State.clearDirty_key : (s.clearDirty).key = s.key := rfl
@[simp] theorem State.clearDirty_ms : (s.clearDirty).ms = s.ms := rfl
@[simp] theorem State.clearDirty_fr : (s.clearDirty).fr = s.fr := rfl
@[simp] theorem State.clearDirty_loaded : (s.clearDirty).loaded = s.loaded := rfl
@[simp] theorem State.clearDirty_romlen : (s.clearDirty).romlen = s.romlen := rfl
@[simp] theorem State.clearDirty_draws : (s.clearDirty).draws = s.draws := rfl

@[simp] theorem State.clearDirty_reg (q : Reg) : (s.clearDirty).reg q = s.reg q := rfl
@[simp] theorem State.clearDirty_byteAt (a : Nat) : (s.clearDirty).byteAt a = s.byteAt a := rfl
@[simp] theorem State.clearDirty_pixel (y : Fin Config.rows) (x : Fin Config.columns) : (s.clearDirty).pixel y x = s.pixel y x := rfl
@[simp] theorem State.clearDirty_keyDown (k : Fin Config.keys) : (s.clearDirty).keyDown k = s.keyDown k := rfl

/-! ### takeDrawFlag -/

@[simp] theorem State.takeDrawFlag_snd_v : (s.takeDrawFlag.2).v = s.v := rfl
@[simp] theorem State.takeDrawFlag_snd_i : (s.takeDrawFlag.2).i = s.i := rfl
@[simp] theorem State.takeDrawFlag_snd_pc : (s.takeDrawFlag.2).pc = s.pc := rfl
@[simp] theorem State.takeDrawFlag_snd_sp : (s.takeDrawFlag.2).sp = s.sp := rfl
@[simp] theorem State.takeDrawFlag_snd_stk : (s.takeDrawFlag.2).stk = s.stk := rfl
@[simp] theorem State.takeDrawFlag_snd_dt : (s.takeDrawFlag.2).dt = s.dt := rfl
@[simp] theorem State.takeDrawFlag_snd_st : (s.takeDrawFlag.2).st = s.st := rfl
@[simp] theorem State.takeDrawFlag_snd_tacc : (s.takeDrawFlag.2).tacc = s.tacc := rfl
@[simp] theorem State.takeDrawFlag_snd_mem : (s.takeDrawFlag.2).mem = s.mem := rfl
@[simp] theorem State.takeDrawFlag_snd_fb : (s.takeDrawFlag.2).fb = s.fb := rfl
@[simp] theorem State.takeDrawFlag_snd_dirty : (s.takeDrawFlag.2).dirty = s.dirty := rfl
@[simp] theorem State.takeDrawFlag_snd_drawp : (s.takeDrawFlag.2).drawp = false := rfl
@[simp] theorem State.takeDrawFlag_snd_key : (s.takeDrawFlag.2).key = s.key := rfl
@[simp] theorem State.takeDrawFlag_snd_ms : (s.takeDrawFlag.2).ms = s.ms := rfl
@[simp] theorem State.takeDrawFlag_snd_fr : (s.takeDrawFlag.2).fr = s.fr := rfl
@[simp] theorem State.takeDrawFlag_snd_loaded : (s.takeDrawFlag.2).loaded = s.loaded := rfl
@[simp] theorem State.takeDrawFlag_snd_romlen : (s.takeDrawFlag.2).romlen = s.romlen := rfl
@[simp] theorem State.takeDrawFlag_snd_draws : (s.takeDrawFlag.2).draws = s.draws := rfl

@[simp] theorem State.takeDrawFlag_snd_reg (q : Reg) : (s.takeDrawFlag.2).reg q = s.reg q := rfl
@[simp] theorem State.takeDrawFlag_snd_byteAt (a : Nat) : (s.takeDrawFlag.2).byteAt a = s.byteAt a := rfl
@[simp] theorem State.takeDrawFlag_snd_pixel (y : Fin Config.rows) (x : Fin Config.columns) : (s.takeDrawFlag.2).pixel y x = s.pixel y x := rfl
@[simp] theorem State.takeDrawFlag_snd_isDirty (y : Fin Config.rows) (b' : Fin Config.buckets) : (s.takeDrawFlag.2).isDirty y b' = s.isDirty y b' := rfl
@[simp] theorem State.takeDrawFlag_snd_keyDown (k : Fin Config.keys) : (s.takeDrawFlag.2).keyDown k = s.keyDown k := rfl

/-! ### resetSequence -/

@[simp] theorem State.resetSequence_v : (s.resetSequence).v = Vector.replicate 16 0 := rfl
@[simp] theorem State.resetSequence_i : (s.resetSequence).i = 0 := rfl
@[simp] theorem State.resetSequence_pc : (s.resetSequence).pc = 0x200 := rfl
@[simp] theorem State.resetSequence_sp : (s.resetSequence).sp = 0 := rfl
@[simp] theorem State.resetSequence_stk : (s.resetSequence).stk = Vector.replicate Config.stackDepth 0 := rfl
@[simp] theorem State.resetSequence_dt : (s.resetSequence).dt = 0 := rfl
@[simp] theorem State.resetSequence_st : (s.resetSequence).st = 0 := rfl
@[simp] theorem State.resetSequence_tacc : (s.resetSequence).tacc = 0 := rfl
@[simp] theorem State.resetSequence_mem : (s.resetSequence).mem = s.mem.keepProgram s.romlen := rfl
@[simp] theorem State.resetSequence_fb : (s.resetSequence).fb = Grid.fill Config.rows Config.columns false := rfl
@[simp] theorem State.resetSequence_dirty : (s.resetSequence).dirty = Grid.fill Config.rows Config.buckets false := rfl
@[simp] theorem State.resetSequence_drawp : (s.resetSequence).drawp = false := rfl
@[simp] theorem State.resetSequence_key : (s.resetSequence).key = s.key := rfl
@[simp] theorem State.resetSequence_ms : (s.resetSequence).ms = s.ms := rfl
@[simp] theorem State.resetSequence_fr : (s.resetSequence).fr = s.fr := rfl
@[simp] theorem State.resetSequence_loaded : (s.resetSequence).loaded = s.loaded := rfl
@[simp] theorem State.resetSequence_romlen : (s.resetSequence).romlen = s.romlen := rfl
@[simp] theorem State.resetSequence_draws : (s.resetSequence).draws = s.draws := rfl

@[simp] theorem State.resetSequence_keyDown (k : Fin Config.keys) : (s.resetSequence).keyDown k = s.keyDown k := rfl

/-! ### A record update of one field, seen through the views -/

@[simp] theorem State.byteAt_with_mem (m : Memory) (a : Nat) : ({ s with mem := m } : State).byteAt a = m.get a := rfl
@[simp] theorem State.reg_with_mem (m : Memory) (q : Reg) : ({ s with mem := m } : State).reg q = s.reg q := rfl

/-! ### Two updates of the whole -/

/-- The state with its own registers is the state. -/
theorem State.with_v_self : ({ s with v := s.v } : State) = s := rfl

end Sys2Proof.Machine
end

