-- ==== Sys2Proof/Laws/Registers.lean ====
section
/-! SUPPORT. The register file: reading after writing, and what the two-write ALU operation leaves. -/

namespace Sys2Proof.Machine

/-- A register reads the value last written to it and no other write changes it (R20). -/
theorem State.reg_setReg (s : State) (r q : Reg) (b : Byte) :
    (s.setReg r b).reg q = if q = r then b else s.reg q := by
  unfold State.reg State.setReg
  rw [Vector.getElem_set]
  by_cases h : q = r
  · simp [h]
  · have : r.toNat ≠ q.toNat := fun e => h (BitVec.eq_of_toNat_eq e.symm)
    simp [h, this]

theorem State.reg_setReg_same (s : State) (r : Reg) (b : Byte) : (s.setReg r b).reg r = b := by
  simp [State.reg_setReg]

theorem State.reg_setReg_other (s : State) {r q : Reg} (b : Byte) (h : q ≠ r) :
    (s.setReg r b).reg q = s.reg q := by
  simp [State.reg_setReg, h]

/-- The result goes to V[x], the flag to VF, and with x = 15 the flag remains (R140). -/
theorem State.reg_setRegThenFlag (s : State) (x q : Reg) (b f : Byte) :
    (s.setRegThenFlag x b f).reg q = if q = vf then f else if q = x then b else s.reg q := by
  simp [State.setRegThenFlag, State.reg_setReg]

/-- Registers that read alike are the same register file. -/
theorem State.v_ext {s t : State} (h : ∀ r : Reg, t.reg r = s.reg r) : t.v = s.v := by
  apply Vector.ext
  intro k hk
  have := h (BitVec.ofNat 4 k)
  unfold State.reg at this
  simpa [Nat.mod_eq_of_lt hk] using this

/-- V0 to V[x], nothing else, in the register store and load (R165, R166). -/
theorem mem_regsUpTo (x r : Reg) : r ∈ regsUpTo x ↔ r.toNat ≤ x.toNat := by
  simp only [regsUpTo, List.mem_map, List.mem_range]
  constructor
  · rintro ⟨k, hk, rfl⟩
    have := x.isLt
    simp only [BitVec.toNat_ofNat]
    omega
  · intro h
    exact ⟨r.toNat, by omega, by simp⟩

theorem length_regsUpTo (x : Reg) : (regsUpTo x).length = x.toNat + 1 := by simp [regsUpTo]

end Sys2Proof.Machine
end

