-- ==== Sys2Proof/Laws/Ops.lean ====
section
/-! SUPPORT. For each shared operation one lemma that says everything it can do. -/

namespace Sys2Proof.Machine

/-! ### Configuration -/

/-- "CPU_HZ >= 60" (R7). -/
theorem Config_cpuHz_ge : 60 ≤ Config.cpuHz := Nat.le_add_left _ _

/-! ### Byte access (R62, R63) and fetch (R64) -/

theorem State.memRead_of_le (s : State) {a : Nat} (h : a ≤ Config.memTop) : s.memRead a = .ok (s.byteAt a) :=
  if_neg (by omega)

theorem State.memRead_of_gt (s : State) {a : Nat} (h : Config.memTop < a) :
    s.memRead a = .error .addressOutOfRange := if_pos h

theorem State.memWrite_of_le (s : State) {a : Nat} (b : Byte) (h : a ≤ Config.memTop) :
    s.memWrite a b = .ok { s with mem := s.mem.set a b } := if_neg (by omega)

theorem State.memWrite_of_gt (s : State) {a : Nat} (b : Byte) (h : Config.memTop < a) :
    s.memWrite a b = .error .addressOutOfRange := if_pos h

/-- The fetch reads the two bytes at PC and PC + 1, or faults when PC is above 0xFFE (R64). -/
theorem State.fetch_eq (s : State) :
    s.fetch = if s.pc.toNat + 1 ≤ Config.memTop then
      .ok (wordOfBytes (s.byteAt s.pc.toNat) (s.byteAt (s.pc.toNat + 1))) else .error .addressOutOfRange := by
  unfold State.fetch
  by_cases h : s.pc.toNat + 1 ≤ Config.memTop
  · rw [if_pos h, s.memRead_of_le (by omega), s.memRead_of_le h]
  · rw [if_neg h]
    by_cases h0 : s.pc.toNat ≤ Config.memTop
    · rw [s.memRead_of_le h0, s.memRead_of_gt (by omega)]
    · rw [s.memRead_of_gt (by omega)]

theorem State.fetch_ok_iff (s : State) (w : Word) :
    s.fetch = .ok w ↔
      s.pc.toNat + 1 ≤ Config.memTop ∧ wordOfBytes (s.byteAt s.pc.toNat) (s.byteAt (s.pc.toNat + 1)) = w := by
  rw [State.fetch_eq]; split <;> simp_all

/-! ### The call stack (R122, R124) -/

theorem State.push_of_full {s : State} (w : Word) (h : s.sp.val = Config.stackDepth) :
    s.push w = .error .stackOverflow := dif_neg (by omega)

theorem State.push_of_room {s : State} (w : Word) (h : s.sp.val < Config.stackDepth) :
    s.push w = .ok { s with stk := s.stk.set s.sp.val w h, sp := ⟨s.sp.val + 1, Nat.succ_lt_succ h⟩ } := dif_pos h

theorem State.pop_of_empty {s : State} (h : s.sp.val = 0) : s.pop = .error .stackUnderflow := dif_neg (by omega)

theorem State.pop_of_some {s : State} (h : 0 < s.sp.val) :
    s.pop = .ok (s.stk[s.sp.val - 1]'(by omega), { s with sp := ⟨s.sp.val - 1, by omega⟩ }) := dif_pos h

/-! ### Several bytes (R65, R209) -/

/-- Bytes that all lie at or below 0xFFF are all stored, and nothing else changes. -/
theorem State.storeBytes_of_fits {s : State} {a : Nat} {bs : List Byte} (h : a + bs.length ≤ Config.memTop + 1) :
    s.storeBytes a bs = { s with mem := s.mem.setBytes a bs } := by
  induction bs generalizing s a with
  | nil => rfl
  | cons b bs ih =>
    simp only [List.length_cons] at h
    rw [State.storeBytes, s.memWrite_of_le b (by omega)]
    exact ih (by omega)

/-- Otherwise those at or below 0xFFF are stored, and AddressOutOfRange is raised. -/
theorem State.storeBytes_of_over {s : State} {a : Nat} {bs : List Byte} (h : Config.memTop + 1 < a + bs.length)
    (hne : bs ≠ []) :
    s.storeBytes a bs =
      State.raise { s with mem := s.mem.setBytes a (bs.take (Config.memTop + 1 - a)) } .addressOutOfRange := by
  induction bs generalizing s a with
  | nil => exact absurd rfl hne
  | cons b bs ih =>
    simp only [List.length_cons] at h
    by_cases ha : a ≤ Config.memTop
    · rw [State.storeBytes, s.memWrite_of_le b ha]
      have hbs : bs ≠ [] := by rintro rfl; simp only [List.length_nil] at h; omega
      obtain ⟨n, hn⟩ : ∃ n, Config.memTop + 1 - a = n + 1 := ⟨Config.memTop - a, by omega⟩
      have hn' : Config.memTop + 1 - (a + 1) = n := by omega
      simp only [ih (s := { s with mem := s.mem.set a b }) (a := a + 1) (by omega) hbs, hn, hn', List.take_succ_cons,
        Memory.setBytes]
    · rw [State.storeBytes, s.memWrite_of_gt b (by omega)]
      have : Config.memTop + 1 - a = 0 := by omega
      rw [this]
      rfl

/-- The registers of a list loaded in turn from address a on, with no check. -/
def State.loadedRegs (s : State) (a : Nat) : List Reg → State
  | [] => s
  | r :: rs => State.loadedRegs (s.setReg r (s.byteAt a)) (a + 1) rs

/-- Bytes that all lie at or below 0xFFF are all loaded. -/
theorem State.loadBytes_of_fits {s : State} {a : Nat} {rs : List Reg} (h : a + rs.length ≤ Config.memTop + 1) :
    s.loadBytes a rs = s.loadedRegs a rs := by
  induction rs generalizing s a with
  | nil => rfl
  | cons r rs ih =>
    simp only [List.length_cons] at h
    rw [State.loadBytes, s.memRead_of_le (by omega)]
    exact ih (by omega)

/-- Otherwise those at or below 0xFFF are loaded, and AddressOutOfRange is raised. -/
theorem State.loadBytes_of_over {s : State} {a : Nat} {rs : List Reg} (h : Config.memTop + 1 < a + rs.length)
    (hne : rs ≠ []) :
    s.loadBytes a rs = (s.loadedRegs a (rs.take (Config.memTop + 1 - a))).raise .addressOutOfRange := by
  induction rs generalizing s a with
  | nil => exact absurd rfl hne
  | cons r rs ih =>
    simp only [List.length_cons] at h
    by_cases ha : a ≤ Config.memTop
    · rw [State.loadBytes, s.memRead_of_le ha]
      have hrs : rs ≠ [] := by rintro rfl; simp only [List.length_nil] at h; omega
      obtain ⟨n, hn⟩ : ∃ n, Config.memTop + 1 - a = n + 1 := ⟨Config.memTop - a, by omega⟩
      have hn' : Config.memTop + 1 - (a + 1) = n := by omega
      simp only [ih (s := s.setReg r (s.byteAt a)) (a := a + 1) (by omega) hrs, hn, hn', List.take_succ_cons,
        State.loadedRegs]
    · rw [State.loadBytes, s.memRead_of_gt (by omega)]
      have : Config.memTop + 1 - a = 0 := by omega
      rw [this]
      rfl

/-- Loading registers writes the register file and nothing else. -/
theorem State.loadedRegs_frame (s : State) (a : Nat) (rs : List Reg) :
    { s.loadedRegs a rs with v := s.v } = s := by
  induction rs generalizing s a with
  | nil => rfl
  | cons r rs ih =>
    have := congrArg (fun t : State => { t with v := s.v }) (ih (s.setReg r (s.byteAt a)) (a + 1))
    exact this

theorem State.loadedRegs_reg_of_not_mem (s : State) (a : Nat) {rs : List Reg} {q : Reg} (h : q ∉ rs) :
    (s.loadedRegs a rs).reg q = s.reg q := by
  induction rs generalizing s a with
  | nil => rfl
  | cons r rs ih =>
    simp only [List.mem_cons, not_or] at h
    rw [State.loadedRegs, ih _ _ h.2, State.reg_setReg_other _ _ h.1]

/-- The k-th register of a list without repeats gets the byte at a + k. -/
theorem State.loadedRegs_reg_get (s : State) (a : Nat) {rs : List Reg} (hn : rs.Nodup) (k : Nat) (hk : k < rs.length) :
    (s.loadedRegs a rs).reg rs[k] = s.byteAt (a + k) := by
  induction rs generalizing s a k with
  | nil => simp at hk
  | cons r rs ih =>
    rw [List.nodup_cons] at hn
    cases k with
    | zero => simp only [State.loadedRegs, List.getElem_cons_zero]
              rw [State.loadedRegs_reg_of_not_mem _ _ hn.1, State.reg_setReg_same]; rfl
    | succ k =>
      simp only [State.loadedRegs, List.getElem_cons_succ]
      rw [ih _ _ hn.2 k (by simpa using hk), State.setReg_byteAt]
      congr 1
      omega

/-! ### Grids -/

theorem Grid.get_set {h w : Nat} (g : Grid h w) (y y' : Fin h) (x x' : Fin w) (b : Bool) :
    (g.set y x b).get y' x' = if y' = y ∧ x' = x then b else g.get y' x' := by
  unfold Grid.get Grid.set
  rw [Vector.getElem_set]
  by_cases hy : y = y'
  · subst hy
    simp only [↓reduceIte, Vector.getElem_set]
    by_cases hx : x = x'
    · simp [hx]
    · have : x.val ≠ x'.val := fun e => hx (Fin.ext e)
      simp [this, Ne.symm hx]
  · have : y.val ≠ y'.val := fun e => hy (Fin.ext e)
    simp [this, Ne.symm hy]

@[simp] theorem Grid.get_fill {h w : Nat} (y : Fin h) (x : Fin w) (b : Bool) : (Grid.fill h w b).get y x = b := by
  simp [Grid.get, Grid.fill]

theorem Grid.ext {h w : Nat} {g g' : Grid h w} (e : ∀ y x, g.get y x = g'.get y x) : g = g' := by
  apply Vector.ext
  intro y hy
  apply Vector.ext
  intro x hx
  exact e ⟨y, hy⟩ ⟨x, hx⟩

/-! ### One pixel (R180) -/

theorem State.togglePixel_fst (s : State) (px py : Nat) :
    (s.togglePixel px py).1 = s.pixel (row py) (column px) := rfl

theorem State.pixel_togglePixel (s : State) (px py : Nat) (y : Fin Config.rows) (x : Fin Config.columns) :
    (s.togglePixel px py).2.pixel y x =
      if y = row py ∧ x = column px then !s.pixel y x else s.pixel y x := by
  unfold State.pixel
  rw [State.togglePixel_snd_fb, Grid.get_set]
  split
  · next h => rw [h.1, h.2]; rfl
  · rfl

theorem State.isDirty_togglePixel (s : State) (px py : Nat) (y : Fin Config.rows) (b : Fin Config.buckets) :
    (s.togglePixel px py).2.isDirty y b =
      if y = row py ∧ b = bucketOf (column px) then true else s.isDirty y b := by
  unfold State.isDirty
  rw [State.togglePixel_snd_dirty, Grid.get_set]

/-! ### Drawing -/

/-- The columns loop writes VF, FB and DIRTY and nothing else. -/
theorem State.drawColumns_frame (s : State) (x0 y : Nat) (b : Byte) (cs : List Nat) :
    { s.drawColumns x0 y b cs with v := s.v, fb := s.fb, dirty := s.dirty } = s := by
  induction cs generalizing s with
  | nil => rfl
  | cons c cs ih =>
    rw [State.drawColumns]
    split
    · have := congrArg (fun t : State => { t with v := s.v, fb := s.fb, dirty := s.dirty })
        (ih (if (s.togglePixel (x0 + c) y).1 then (s.togglePixel (x0 + c) y).2.setReg vf 1
          else (s.togglePixel (x0 + c) y).2))
      simp only at this ⊢
      rw [this]
      split <;> rfl
    · exact ih s

theorem State.drawColumns_byteAt (s : State) (x0 y : Nat) (b : Byte) (cs : List Nat) (a : Nat) :
    (s.drawColumns x0 y b cs).byteAt a = s.byteAt a := by
  have := congrArg State.mem (State.drawColumns_frame s x0 y b cs)
  simp only at this
  rw [State.byteAt, this]
  rfl

/-- The rows drawn in turn, with no check. -/
def State.drawnRows (s : State) (x0 y0 base : Nat) : List Nat → State
  | [] => s
  | r :: rs => State.drawnRows (s.drawColumns x0 (y0 + r) (s.byteAt (base + r)) (List.range 8)) x0 y0 base rs

/-- Rows that all lie at or below 0xFFF are all drawn. -/
theorem State.drawRows_of_fits {s : State} {x0 y0 base : Nat} {rs : List Nat}
    (h : ∀ r ∈ rs, base + r ≤ Config.memTop) : s.drawRows x0 y0 base rs = s.drawnRows x0 y0 base rs := by
  induction rs generalizing s with
  | nil => rfl
  | cons r rs ih =>
    rw [State.drawRows, s.memRead_of_le (h r (by simp))]
    exact ih fun q hq => h q (by simp [hq])

/-- The rows before the first one above 0xFFF are drawn, and AddressOutOfRange is raised there. -/
theorem State.drawRows_of_over {s : State} {x0 y0 base r : Nat} {rs rs' : List Nat}
    (h : ∀ q ∈ rs, base + q ≤ Config.memTop) (hr : Config.memTop < base + r) :
    s.drawRows x0 y0 base (rs ++ r :: rs') = (s.drawnRows x0 y0 base rs).raise .addressOutOfRange := by
  induction rs generalizing s with
  | nil => rw [List.nil_append, State.drawRows, s.memRead_of_gt hr]; rfl
  | cons q rs ih =>
    rw [List.cons_append, State.drawRows, s.memRead_of_le (h q (by simp))]
    exact ih fun p hp => h p (by simp [hp])

/-- Drawing rows writes VF, FB and DIRTY and nothing else. -/
theorem State.drawnRows_frame (s : State) (x0 y0 base : Nat) (rs : List Nat) :
    { s.drawnRows x0 y0 base rs with v := s.v, fb := s.fb, dirty := s.dirty } = s := by
  induction rs generalizing s with
  | nil => rfl
  | cons r rs ih =>
    have h1 := congrArg (fun t : State => { t with v := s.v, fb := s.fb, dirty := s.dirty })
      (ih (s.drawColumns x0 (y0 + r) (s.byteAt (base + r)) (List.range 8)))
    exact h1.trans (State.drawColumns_frame s x0 (y0 + r) (s.byteAt (base + r)) (List.range 8))

/-! ### Keys (R195) -/

/-- The least pressed key: down, and none below it is. -/
theorem State.leastKeyDown_some {s : State} {k : Fin Config.keys} (h : s.leastKeyDown = some k) :
    s.keyDown k = true ∧ ∀ j : Fin Config.keys, j < k → s.keyDown j = false := by
  obtain ⟨hk, i, hi, he, hj⟩ := List.find?_eq_some_iff_getElem.mp h
  refine ⟨hk, fun j hjk => ?_⟩
  have hi' : i = k.val := by rw [← he]; simp
  have := hj j.val (by rw [hi']; exact hjk)
  simpa using this

theorem State.leastKeyDown_none {s : State} : s.leastKeyDown = none ↔ ∀ k : Fin Config.keys, s.keyDown k = false := by
  simp [State.leastKeyDown, List.find?_eq_none]

/-! ### Timers (R225) -/

theorem toNat_countDown (t : Byte) : (countDown t).toNat = t.toNat - 1 := by
  unfold countDown
  split
  · next h => subst h; rfl
  · next h =>
    have : t.toNat ≠ 0 := fun e => h (BitVec.eq_of_toNat_eq e)
    have := t.isLt
    rw [BitVec.toNat_sub, show (1 : Byte).toNat = 1 from rfl]
    omega

/-! ### The step (R220) -/

/-- What a step can do: nothing, a fetch fault, an illegal word, or an instruction. -/
theorem step_cases (s : State) :
    (s.ms ≠ .running ∧ step s = .next s) ∨
    (s.ms = .running ∧ Config.memTop < s.pc.toNat + 1 ∧ step s = .next (s.raise .addressOutOfRange)) ∨
    (∃ w e, s.ms = .running ∧ s.fetch = .ok w ∧ decode w = .error e ∧
      step s = .next (s.advancePc.raise .illegalInstruction)) ∨
    (∃ w i, s.ms = .running ∧ s.fetch = .ok w ∧ decode w = .ok i ∧
      step s = endOutcome (exec i s.advancePc)) := by
  unfold step stepOf cycle runWord
  by_cases h : s.ms = .running
  · rw [if_pos h]
    cases hf : s.fetch with
    | error f =>
      rw [State.fetch_eq] at hf
      split at hf
      · cases hf
      · next hp => cases hf; exact .inr (.inl ⟨h, by omega, rfl⟩)
    | ok w =>
      cases hd : decode w with
      | error e => exact .inr (.inr (.inl ⟨w, e, h, rfl, hd, by simp only [hd]⟩))
      | ok i => exact .inr (.inr (.inr ⟨w, i, h, rfl, hd, by simp only [hd]⟩))
  · rw [if_neg h]; exact .inl ⟨h, rfl⟩

end Sys2Proof.Machine
end

