-- ==== Sys2Proof/Laws/Controller.lean ====
section
/-! SUPPORT. What the reset sequence and start() do, said once. -/

namespace Sys2Proof.Machine

/-- A byte of memory after the reset sequence: the program area as it was, the reset contents elsewhere (R251). -/
theorem State.byteAt_resetSequence (s : State) (a : Nat) :
    s.resetSequence.byteAt a =
      if Config.programBase ≤ a ∧ a < Config.programBase + s.romlen then s.byteAt a else Memory.initial a := by
  unfold State.byteAt
  rw [State.resetSequence_mem, Memory.get_keepProgram]

/-- The reset sequence gives every element it writes its reset value (R251). -/
theorem State.hasResetValues_resetSequence (s : State) : s.resetSequence.HasResetValues := by
  have hb : Config.programBase = 0x200 := rfl
  have hf : Config.fontBase + Config.fontLength = 0x0A0 := rfl
  have hfb : Config.fontBase = 0x050 := rfl
  refine ⟨fun r => ?_, rfl, rfl, rfl, fun k => ?_, rfl, rfl, rfl, fun y x => ?_, fun y b => ?_, rfl, fun a ha => ?_,
    fun j => ?_, fun a h1 h2 => ?_, fun a ha => ?_⟩
  · simp [State.reg, State.resetSequence]
  · simp [State.resetSequence]
  · simp [State.pixel, State.resetSequence]
  · simp [State.isDirty, State.resetSequence]
  · rw [State.byteAt_resetSequence, if_neg (by omega), Memory.initial_of_not_font (by omega)]
  · rw [State.byteAt_resetSequence, if_neg (by have := j.isLt; omega)]
    exact Memory.initial_font j
  · rw [State.byteAt_resetSequence, if_neg (by omega), Memory.initial_of_not_font (by omega)]
  · have ha' : Config.programBase + s.romlen ≤ a := ha
    rw [State.byteAt_resetSequence, if_neg (by omega), Memory.initial_of_not_font (by omega)]

/-- HasResetValues speaks of no status, key or mark of the controller. -/
theorem State.HasResetValues.setStatus {s : State} (h : s.HasResetValues) (f : FaultReason) (m : Lifecycle) :
    State.HasResetValues { s with fr := f, ms := m } :=
  ⟨h.registers, h.index, h.programCounter, h.stackPointer, h.stackSlots, h.delayTimer, h.soundTimer, h.accumulator,
    h.pixels, h.dirtyFlags, h.drawPending, h.belowFont, h.fontBytes, h.reservedBytes, h.aboveProgram⟩

/-- What start() can do: answer one of its two errors and change nothing, or reset and run (R213). -/
theorem State.start_cases (s : State) :
    (s.loaded = false ∧ s.start = (.error .notLoaded, s)) ∨
    (s.loaded = true ∧ s.ms = .running ∧ s.start = (.error .alreadyRunning, s)) ∨
    (s.loaded = true ∧ s.ms ≠ .running ∧ s.start = (.done, { s.resetSequence with fr := .noFault, ms := .running })) := by
  unfold State.start
  by_cases hl : s.loaded = false
  · exact .inl ⟨hl, if_pos hl⟩
  · rw [if_neg hl]
    by_cases hr : s.ms = .running
    · exact .inr (.inl ⟨by simpa using hl, hr, if_pos hr⟩)
    · exact .inr (.inr ⟨by simpa using hl, hr, if_neg hr⟩)

end Sys2Proof.Machine
end

