-- ==== Sys2Proof/Laws/Decode.lean ====
section
/-! SUPPORT. The fields of the formats of 30_encoding.md R91, and of a word as numbers. -/

namespace Sys2Proof

theorem opField_formatA (op : BitVec 4) (nnn : Addr12) : opField (formatA op nnn) = op := by
  unfold opField formatA; exact BitVec.extractLsb'_append_eq_left

theorem nnnField_formatA (op : BitVec 4) (nnn : Addr12) : nnnField (formatA op nnn) = nnn := by
  unfold nnnField formatA; exact BitVec.extractLsb'_append_eq_right

/-- A word has op and nnn, and nothing else. -/
theorem formatA_of_fields (w : Word) : formatA (opField w) (nnnField w) = w := by
  apply BitVec.eq_of_toNat_eq
  have := w.isLt
  simp only [formatA, opField, nnnField, BitVec.toNat_append, BitVec.extractLsb'_toNat, Nat.shiftLeft_eq,
    Nat.shiftRight_eq_div_pow]
  rw [← Nat.shiftLeft_eq, ← Nat.shiftLeft_add_eq_or_of_lt (by omega)]
  simp only [Nat.shiftLeft_eq]
  omega

/-- nnn is x and nn. -/
theorem nnnField_eq_x_nn (w : Word) : nnnField w = (xField w ++ nnField w : BitVec 12) := by
  apply BitVec.eq_of_toNat_eq
  have := w.isLt
  simp only [nnnField, xField, nnField, BitVec.toNat_append, BitVec.extractLsb'_toNat, Nat.shiftRight_eq_div_pow]
  rw [← Nat.shiftLeft_add_eq_or_of_lt (by omega)]
  simp only [Nat.shiftLeft_eq]
  omega

/-- nn is y and n. -/
theorem nnField_eq_y_n (w : Word) : nnField w = (yField w ++ nField w : BitVec 8) := by
  apply BitVec.eq_of_toNat_eq
  have := w.isLt
  simp only [nnField, yField, nField, BitVec.toNat_append, BitVec.extractLsb'_toNat, Nat.shiftRight_eq_div_pow]
  rw [← Nat.shiftLeft_add_eq_or_of_lt (by omega)]
  simp only [Nat.shiftLeft_eq]
  omega

/-- A word is its op, x and nn. -/
theorem formatI_of_fields (w : Word) : formatI (opField w) (xField w) (nnField w) = w := by
  have := formatA_of_fields w
  rwa [nnnField_eq_x_nn] at this

/-- A word is its op, x, y and n. -/
theorem formatR_of_fields (w : Word) : formatR (opField w) (xField w) (yField w) (nField w) = w := by
  have := formatI_of_fields w
  rwa [nnField_eq_y_n] at this

theorem opField_formatI (op : BitVec 4) (x : Reg) (nn : Byte) : opField (formatI op x nn) = op := opField_formatA op _

theorem xField_formatI (op : BitVec 4) (x : Reg) (nn : Byte) : xField (formatI op x nn) = x := by
  have h := nnnField_eq_x_nn (formatI op x nn)
  rw [show nnnField (formatI op x nn) = (x ++ nn : BitVec 12) from nnnField_formatA op _] at h
  have := congrArg (BitVec.extractLsb' 8 4) h
  rw [show (BitVec.extractLsb' 8 4 (x ++ nn : BitVec 12)) = x from BitVec.extractLsb'_append_eq_left] at this
  exact (this.trans BitVec.extractLsb'_append_eq_left).symm

theorem nnField_formatI (op : BitVec 4) (x : Reg) (nn : Byte) : nnField (formatI op x nn) = nn := by
  have h := nnnField_eq_x_nn (formatI op x nn)
  rw [show nnnField (formatI op x nn) = (x ++ nn : BitVec 12) from nnnField_formatA op _] at h
  have := congrArg (BitVec.extractLsb' 0 8) h
  rw [show (BitVec.extractLsb' 0 8 (x ++ nn : BitVec 12)) = nn from BitVec.extractLsb'_append_eq_right] at this
  exact (this.trans BitVec.extractLsb'_append_eq_right).symm

theorem opField_formatR (op : BitVec 4) (x y : Reg) (n : Nibble) : opField (formatR op x y n) = op := opField_formatA op _

theorem xField_formatR (op : BitVec 4) (x y : Reg) (n : Nibble) : xField (formatR op x y n) = x := xField_formatI op x _

theorem yField_formatR (op : BitVec 4) (x y : Reg) (n : Nibble) : yField (formatR op x y n) = y := by
  have h := nnField_eq_y_n (formatR op x y n)
  rw [show nnField (formatR op x y n) = (y ++ n : BitVec 8) from nnField_formatI op x _] at h
  have := congrArg (BitVec.extractLsb' 4 4) h
  rw [show (BitVec.extractLsb' 4 4 (y ++ n : BitVec 8)) = y from BitVec.extractLsb'_append_eq_left] at this
  exact (this.trans BitVec.extractLsb'_append_eq_left).symm

theorem nField_formatR (op : BitVec 4) (x y : Reg) (n : Nibble) : nField (formatR op x y n) = n := by
  have h := nnField_eq_y_n (formatR op x y n)
  rw [show nnField (formatR op x y n) = (y ++ n : BitVec 8) from nnField_formatI op x _] at h
  have := congrArg (BitVec.extractLsb' 0 4) h
  rw [show (BitVec.extractLsb' 0 4 (y ++ n : BitVec 8)) = n from BitVec.extractLsb'_append_eq_right] at this
  exact (this.trans BitVec.extractLsb'_append_eq_right).symm

/-- The bytes of a word, joined again (R67). -/
theorem wordOfBytes_high_low (w : Word) : wordOfBytes (highByte w) (lowByte w) = w := by
  apply BitVec.eq_of_toNat_eq
  have := w.isLt
  simp only [wordOfBytes, highByte, lowByte, BitVec.toNat_append, BitVec.extractLsb'_toNat, Nat.shiftRight_eq_div_pow]
  rw [← Nat.shiftLeft_add_eq_or_of_lt (by omega)]
  simp only [Nat.shiftLeft_eq]
  omega

/-- The high byte counts 256 (R64). -/
theorem toNat_wordOfBytes (hi lo : Byte) : (wordOfBytes hi lo).toNat = hi.toNat * 256 + lo.toNat := by
  unfold wordOfBytes
  rw [BitVec.toNat_append, ← Nat.shiftLeft_add_eq_or_of_lt lo.isLt, Nat.shiftLeft_eq]

end Sys2Proof
end

