-- ==== Sys2Proof/Laws/Exec.lean ====
section
/-! SUPPORT. For each instruction that does not simply write once: the state it answers, case by case. -/

namespace Sys2Proof.Machine

/-! ### RET and CALL (R122, R124) -/

theorem exec_ret_of_empty {s : State} (h : s.sp.val = 0) : exec .ret s = .next (s.raise .stackUnderflow) := by
  show execRet s = _
  rw [execRet, State.pop_of_empty h]

theorem exec_ret_of_some {s : State} (h : 0 < s.sp.val) :
    exec .ret s = .next { s with sp := ⟨s.sp.val - 1, by omega⟩, pc := s.stk[s.sp.val - 1]'(by omega) } := by
  show execRet s = _
  rw [execRet, State.pop_of_some h]
  rfl

theorem exec_call_of_full {s : State} (nnn : Addr12) (h : s.sp.val = Config.stackDepth) :
    exec (.call nnn) s = .next (s.raise .stackOverflow) := by
  show execCall nnn s = _
  rw [execCall, State.push_of_full _ h]

theorem exec_call_of_room {s : State} (nnn : Addr12) (h : s.sp.val < Config.stackDepth) :
    exec (.call nnn) s =
      .next { s with
        stk := s.stk.set s.sp.val s.pc h, sp := ⟨s.sp.val + 1, Nat.succ_lt_succ h⟩, pc := addrOperand nnn } := by
  show execCall nnn s = _
  rw [execCall, State.push_of_room _ h]
  rfl

/-! ### LD Vx, K (R195) -/

theorem exec_ldVxK_of_none {s : State} (x : Reg) (h : s.leastKeyDown = none) :
    exec (.ldVxK x) s = .next (s.jump (s.pc - 2)) := by
  show execLdVxK x s = _
  rw [execLdVxK, h]

theorem exec_ldVxK_of_some {s : State} (x : Reg) {k : Fin Config.keys} (h : s.leastKeyDown = some k) :
    exec (.ldVxK x) s = .next (s.setReg x (BitVec.ofNat 8 k.val)) := by
  show execLdVxK x s = _
  rw [execLdVxK, h]

/-! ### LD B and the register store and load (R164 to R166) -/

theorem length_bcdDigits (b : Byte) : (bcdDigits b).length = 3 := rfl

theorem exec_ldBVx_of_fits {s : State} (x : Reg) (h : s.base + 2 ≤ Config.memTop) :
    exec (.ldBVx x) s = .next { s with mem := s.mem.setBytes s.base (bcdDigits (s.reg x)) } := by
  show execLdBVx x s = _
  rw [execLdBVx, State.storeBytes_of_fits (by rw [length_bcdDigits]; omega)]

theorem exec_ldBVx_of_over {s : State} (x : Reg) (h : Config.memTop < s.base + 2) :
    exec (.ldBVx x) s =
      .next (State.raise { s with
        mem := s.mem.setBytes s.base ((bcdDigits (s.reg x)).take (Config.memTop + 1 - s.base)) } .addressOutOfRange) := by
  show execLdBVx x s = _
  rw [execLdBVx, State.storeBytes_of_over (by rw [length_bcdDigits]; omega) (by simp [bcdDigits])]

theorem exec_storeRegs_of_fits {s : State} (x : Reg) (h : s.base + x.toNat ≤ Config.memTop) :
    exec (.storeRegs x) s = .next { s with mem := s.mem.setBytes s.base ((regsUpTo x).map s.reg) } := by
  show execStoreRegs x s = _
  rw [execStoreRegs, State.storeBytes_of_fits (by rw [List.length_map, length_regsUpTo]; omega)]

theorem exec_storeRegs_of_over {s : State} (x : Reg) (h : Config.memTop < s.base + x.toNat) :
    exec (.storeRegs x) s =
      .next (State.raise { s with
        mem := s.mem.setBytes s.base (((regsUpTo x).map s.reg).take (Config.memTop + 1 - s.base)) }
        .addressOutOfRange) := by
  show execStoreRegs x s = _
  rw [execStoreRegs, State.storeBytes_of_over (by rw [List.length_map, length_regsUpTo]; omega) (by simp [regsUpTo])]

theorem exec_loadRegs_of_fits {s : State} (x : Reg) (h : s.base + x.toNat ≤ Config.memTop) :
    exec (.loadRegs x) s = .next (s.loadedRegs s.base (regsUpTo x)) := by
  show execLoadRegs x s = _
  rw [execLoadRegs, State.loadBytes_of_fits (by rw [length_regsUpTo]; omega)]

theorem exec_loadRegs_of_over {s : State} (x : Reg) (h : Config.memTop < s.base + x.toNat) :
    exec (.loadRegs x) s =
      .next ((s.loadedRegs s.base ((regsUpTo x).take (Config.memTop + 1 - s.base))).raise .addressOutOfRange) := by
  show execLoadRegs x s = _
  rw [execLoadRegs, State.loadBytes_of_over (by rw [length_regsUpTo]; omega) (by simp [regsUpTo])]

/-! ### DRW (R182) -/

theorem exec_drw_of_fits {s : State} (x y : Reg) (n : Nibble) (h : ∀ r, r < n.toNat → s.base + r ≤ Config.memTop) :
    exec (.drw x y n) s =
      .next (s.beginDraw.drawnRows ((s.reg x).toNat % 64) ((s.reg y).toNat % 32) s.base (List.range n.toNat)) := by
  show execDrw x y n s = _
  rw [execDrw, State.drawRows_of_fits fun r hr => h r (List.mem_range.mp hr)]

/-- The rows before the first one out of range, m, are drawn. -/
theorem exec_drw_of_over {s : State} (x y : Reg) (n : Nibble) {m : Nat} (hm : m < n.toNat)
    (h : ∀ r, r < m → s.base + r ≤ Config.memTop) (ho : Config.memTop < s.base + m) :
    exec (.drw x y n) s =
      .next ((s.beginDraw.drawnRows ((s.reg x).toNat % 64) ((s.reg y).toNat % 32) s.base (List.range m)).raise
        .addressOutOfRange) := by
  have hsplit : List.range n.toNat = List.range m ++ m :: (List.range (n.toNat - m - 1)).map (m + 1 + ·) := by
    have : n.toNat = m + 1 + (n.toNat - m - 1) := by omega
    conv_lhs => rw [this, List.range_add, List.range_succ]
    simp
  show execDrw x y n s = _
  rw [execDrw, hsplit, State.drawRows_of_over (fun r hr => h r (List.mem_range.mp hr)) ho]

end Sys2Proof.Machine
end

