-- ==== Sys2Proof/Laws/Draw.lean ====
section
/-! SUPPORT. What DRW's loops do, said once: they toggle a list of pixels no two of which are the same. -/

namespace Sys2Proof.Machine

/-! ### A list of toggles -/

/-- One toggle as DRW makes it: a pixel that was set sets VF (R182). -/
def State.toggleOne (s : State) (p : Nat × Nat) : State :=
  let q := s.togglePixel p.1 p.2
  if q.1 then q.2.setReg vf 1 else q.2

/-- The toggles of a list in turn. -/
def State.toggleAll (s : State) (l : List (Nat × Nat)) : State := l.foldl State.toggleOne s

/-- The pixel a toggle at (px, py) lands on, both axes wrapping: its row and its column. -/
def toggledCell (p : Nat × Nat) : Fin Config.rows × Fin Config.columns := (row p.2, column p.1)

theorem State.toggleOne_pixel (s : State) (p : Nat × Nat) (y : Fin Config.rows) (x : Fin Config.columns) :
    (s.toggleOne p).pixel y x = (s.pixel y x ^^ decide (toggledCell p = (y, x))) := by
  have h1 : (s.toggleOne p).pixel y x = (s.togglePixel p.1 p.2).2.pixel y x := by
    unfold State.toggleOne
    dsimp only
    by_cases hq : (s.togglePixel p.1 p.2).1 = true <;> simp only [hq, if_true] <;> rfl
  rw [h1, State.pixel_togglePixel]
  simp only [toggledCell, Prod.mk.injEq]
  by_cases h : y = row p.2 ∧ x = column p.1
  · rw [if_pos h]; simp [h.1.symm, h.2.symm]
  · rw [if_neg h]
    have : ¬(row p.2 = y ∧ column p.1 = x) := fun e => h ⟨e.1.symm, e.2.symm⟩
    simp [this]

theorem State.toggleOne_isDirty (s : State) (p : Nat × Nat) (y : Fin Config.rows) (b : Fin Config.buckets) :
    (s.toggleOne p).isDirty y b = (decide (y = row p.2 ∧ b = bucketOf (column p.1)) || s.isDirty y b) := by
  have h1 : (s.toggleOne p).isDirty y b = (s.togglePixel p.1 p.2).2.isDirty y b := by
    unfold State.toggleOne
    dsimp only
    by_cases hq : (s.togglePixel p.1 p.2).1 = true <;> simp only [hq, if_true] <;> rfl
  rw [h1, State.isDirty_togglePixel]
  split <;> simp_all

theorem State.toggleOne_vf (s : State) (p : Nat × Nat) :
    (s.toggleOne p).reg vf = if s.pixel (toggledCell p).1 (toggledCell p).2 then 1 else s.reg vf := by
  have e : (s.togglePixel p.1 p.2).1 = s.pixel (toggledCell p).1 (toggledCell p).2 := rfl
  by_cases hq : s.pixel (toggledCell p).1 (toggledCell p).2 = true
  · simp only [State.toggleOne, e, hq, if_true]; exact State.reg_setReg_same ..
  · simp only [State.toggleOne, e, hq]; rfl

/-- Toggles of pixels no two of which are the same flip exactly those. -/
theorem State.toggleAll_pixel (s : State) (l : List (Nat × Nat)) (y : Fin Config.rows) (x : Fin Config.columns)
    (hn : (l.map toggledCell).Nodup) :
    (s.toggleAll l).pixel y x = (s.pixel y x ^^ decide ((y, x) ∈ l.map toggledCell)) := by
  induction l generalizing s with
  | nil => simp [State.toggleAll]
  | cons p l ih =>
    simp only [List.map_cons, List.nodup_cons] at hn
    have := ih (s.toggleOne p) hn.2
    simp only [State.toggleAll, List.foldl_cons] at this ⊢
    rw [this, State.toggleOne_pixel]
    by_cases h : toggledCell p = (y, x)
    · rw [h] at hn; simp [h, hn.1]
    · have h' : (y, x) ≠ toggledCell p := fun e => h e.symm
      simp [h, h']

/-- Toggles mark the buckets of their pixels and clear none. -/
theorem State.toggleAll_isDirty (s : State) (l : List (Nat × Nat)) (y : Fin Config.rows) (b : Fin Config.buckets) :
    (s.toggleAll l).isDirty y b = true ↔
      s.isDirty y b = true ∨ ∃ x, bucketOf x = b ∧ (y, x) ∈ l.map toggledCell := by
  induction l generalizing s with
  | nil => simp [State.toggleAll]
  | cons p l ih =>
    have := ih (s.toggleOne p)
    simp only [State.toggleAll, List.foldl_cons] at this ⊢
    rw [this, State.toggleOne_isDirty]
    simp only [Bool.or_eq_true, decide_eq_true_eq, List.map_cons, List.mem_cons]
    constructor
    · rintro ((⟨rfl, rfl⟩ | h) | ⟨x, hx, h⟩)
      · exact .inr ⟨_, rfl, .inl rfl⟩
      · exact .inl h
      · exact .inr ⟨x, hx, .inr h⟩
    · rintro (h | ⟨x, rfl, (h | h)⟩)
      · exact .inl (.inr h)
      · simp only [toggledCell, Prod.mk.injEq] at h; exact .inl (.inl ⟨h.1, by rw [h.2]⟩)
      · exact .inr ⟨x, rfl, h⟩

/-- Toggles of pixels no two of which are the same set VF exactly if one of them was set. -/
theorem State.toggleAll_vf (s : State) (l : List (Nat × Nat)) (hn : (l.map toggledCell).Nodup) :
    (s.toggleAll l).reg vf =
      if (∃ y x, s.pixel y x = true ∧ (y, x) ∈ l.map toggledCell) then 1 else s.reg vf := by
  induction l generalizing s with
  | nil => simp [State.toggleAll]
  | cons p l ih =>
    simp only [List.map_cons, List.nodup_cons] at hn
    have := ih (s.toggleOne p) hn.2
    simp only [State.toggleAll, List.foldl_cons] at this ⊢
    rw [this, State.toggleOne_vf]
    have hrest : (∃ y x, (s.toggleOne p).pixel y x = true ∧ (y, x) ∈ l.map toggledCell) ↔
        ∃ y x, s.pixel y x = true ∧ (y, x) ∈ l.map toggledCell := by
      constructor <;> rintro ⟨y, x, h, hm⟩ <;> refine ⟨y, x, ?_, hm⟩ <;> rw [State.toggleOne_pixel] at * <;>
      · have : toggledCell p ≠ (y, x) := fun e => hn.1 (e ▸ hm)
        simpa [this] using h
    simp only [hrest]
    by_cases h1 : ∃ y x, s.pixel y x = true ∧ (y, x) ∈ l.map toggledCell
    · rw [if_pos h1, if_pos]
      obtain ⟨y, x, h, hm⟩ := h1
      exact ⟨y, x, h, by simp only [List.map_cons, List.mem_cons]; exact .inr hm⟩
    · rw [if_neg h1]
      by_cases h2 : s.pixel (toggledCell p).1 (toggledCell p).2 = true
      · rw [if_pos h2, if_pos]; exact ⟨_, _, h2, by simp⟩
      · rw [if_neg h2, if_neg]
        rintro ⟨y, x, h, hm⟩
        simp only [List.map_cons, List.mem_cons] at hm
        rcases hm with hm | hm
        · rw [← hm] at h2; exact h2 h
        · exact h1 ⟨y, x, h, hm⟩

/-! ### The loops as lists of toggles -/

theorem State.drawColumns_eq_toggleAll (s : State) (x0 y : Nat) (b : Byte) (cs : List Nat) :
    s.drawColumns x0 y b cs = s.toggleAll ((cs.filter fun c => b.getLsbD (7 - c)).map fun c => (x0 + c, y)) := by
  induction cs generalizing s with
  | nil => rfl
  | cons c cs ih =>
    rw [State.drawColumns]
    by_cases hb : b.getLsbD (7 - c) = true
    · simp only [if_pos hb, List.filter_cons, List.map_cons]; rw [ih]; rfl
    · simp only [if_neg hb, List.filter_cons]; exact ih _

/-- The toggles of the rows listed, from (x0, y0), of a sprite at address base. -/
def State.spriteToggles (s : State) (x0 y0 base : Nat) (rs : List Nat) : List (Nat × Nat) :=
  rs.flatMap fun r =>
    ((List.range 8).filter fun c => (s.byteAt (base + r)).getLsbD (7 - c)).map fun c => (x0 + c, y0 + r)

theorem State.drawnRows_eq_toggleAll (s : State) (x0 y0 base : Nat) (rs : List Nat) :
    s.drawnRows x0 y0 base rs = s.toggleAll (s.spriteToggles x0 y0 base rs) := by
  induction rs generalizing s with
  | nil => rfl
  | cons r rs ih =>
    have hb : ∀ a, (s.drawColumns x0 (y0 + r) (s.byteAt (base + r)) (List.range 8)).byteAt a = s.byteAt a :=
      State.drawColumns_byteAt s x0 (y0 + r) _ _
    have hl : (s.drawColumns x0 (y0 + r) (s.byteAt (base + r)) (List.range 8)).spriteToggles x0 y0 base rs =
        s.spriteToggles x0 y0 base rs := by simp only [State.spriteToggles, hb]
    rw [State.drawnRows, ih, hl, State.drawColumns_eq_toggleAll]
    simp only [State.spriteToggles, List.flatMap_cons, State.toggleAll, List.foldl_append]

/-- The pixels toggled are those the sprite covers. -/
theorem State.mem_spriteToggles (s : State) (x0 y0 base n : Nat) (hn : n ≤ 15) (y : Fin Config.rows)
    (x : Fin Config.columns) :
    (y, x) ∈ (s.spriteToggles (x0 % 64) (y0 % 32) base (List.range n)).map toggledCell ↔
      spriteCovers s x0 y0 base n y x = true := by
  unfold spriteCovers State.spriteToggles toggledCell
  simp only [Config.rows, Config.columns, List.mem_map, List.mem_flatMap, List.mem_range, List.mem_filter,
    Bool.and_eq_true, decide_eq_true_eq, Prod.mk.injEq]
  have hy : y.val < 32 := y.isLt
  have hx : x.val < 64 := x.isLt
  constructor
  · rintro ⟨_, ⟨r, hr, c, ⟨hc, hb⟩, rfl⟩, h1, h2⟩
    have e1 : (y0 % 32 + r) % 32 = y.val := congrArg Fin.val h1
    have e2 : (x0 % 64 + c) % 64 = x.val := congrArg Fin.val h2
    have er : (y.val + (32 - y0 % 32)) % 32 = r := by omega
    have ec : (x.val + (64 - x0 % 64)) % 64 = c := by omega
    rw [er, ec]
    exact ⟨⟨hr, hc⟩, hb⟩
  · rintro ⟨⟨hr, hc⟩, hb⟩
    refine ⟨_, ⟨_, hr, _, ⟨hc, hb⟩, rfl⟩, Fin.ext ?_, Fin.ext ?_⟩
    · simp only [row]; omega
    · simp only [column]; omega

/-- A sprite of at most 15 rows toggles no pixel twice. -/
theorem State.nodup_spriteToggles (s : State) (x0 y0 base n : Nat) (hn : n ≤ 15) :
    ((s.spriteToggles x0 y0 base (List.range n)).map toggledCell).Nodup := by
  unfold State.spriteToggles
  rw [List.map_flatMap, List.nodup_flatMap]
  constructor
  · intro r _
    rw [List.map_map]
    refine List.Nodup.map_on ?_ (List.nodup_range.filter _)
    intro a ha b hb h
    simp only [List.mem_filter, List.mem_range] at ha hb
    simp only [Function.comp, toggledCell, Prod.mk.injEq] at h
    have := congrArg Fin.val h.2
    simp only [column] at this
    omega
  · have hne : (List.range n).Pairwise (· ≠ ·) := List.nodup_range
    refine List.Pairwise.imp_of_mem ?_ hne
    intro a b ha hb hab
    simp only [Function.onFun, List.disjoint_left, List.mem_map, List.mem_filter]
    rintro _ ⟨_, ⟨c, _, rfl⟩, rfl⟩ ⟨_, ⟨c', _, rfl⟩, h⟩
    simp only [toggledCell, Prod.mk.injEq] at h
    have := congrArg Fin.val h.1
    simp only [row] at this
    rw [List.mem_range] at ha hb
    omega

/-- The loops write no register but VF. -/
theorem State.drawnRows_reg (s : State) (x0 y0 base : Nat) (rs : List Nat) {r : Reg} (h : r ≠ vf) :
    (s.drawnRows x0 y0 base rs).reg r = s.reg r := by
  have hone : ∀ (u : State) (p : Nat × Nat), (u.toggleOne p).reg r = u.reg r := by
    intro u p
    unfold State.toggleOne
    dsimp only
    by_cases hq : (u.togglePixel p.1 p.2).1 = true
    · simp only [hq, if_true]; exact State.reg_setReg_other _ _ h
    · simp only [hq]; rfl
  rw [State.drawnRows_eq_toggleAll]
  generalize s.spriteToggles x0 y0 base rs = l
  induction l generalizing s with
  | nil => rfl
  | cons p l ih => exact (ih (s.toggleOne p)).trans (hone s p)

end Sys2Proof.Machine
end

