-- ==== Sys2Proof/Laws/PerInstr.lean ====
section
/-! SUPPORT. The family OpcodeRow: the word of an instruction lies in its row of 30_encoding.md R95, "(w & mask) =
match" (R93). -/

namespace Sys2Proof

/-! ### Words built of fields, masked -/

theorem and_ones4 (b : BitVec 4) : b &&& 0xF#4 = b := BitVec.and_allOnes

theorem and_ones8 (b : BitVec 8) : b &&& 0xFF#8 = b := BitVec.and_allOnes

theorem formatA_masked (op : BitVec 4) (nnn : Addr12) : formatA op nnn &&& 0xF000#16 = op ++ 0#12 := by
  have h : (0xF000#16) = (0xF#4 ++ 0#12 : BitVec 16) := by decide
  rw [h, formatA, BitVec.and_append]
  simp only [and_ones4, BitVec.and_zero]

theorem formatI_masked (op : BitVec 4) (x : Reg) (nn : Byte) : formatI op x nn &&& 0xF000#16 = op ++ 0#12 :=
  formatA_masked op _

theorem formatI_masked_sub (op : BitVec 4) (x : Reg) (nn : Byte) :
    formatI op x nn &&& 0xF0FF#16 = op ++ (0#4 ++ nn : BitVec 12) := by
  have h : (0xF0FF#16) = (0xF#4 ++ (0#4 ++ 0xFF#8 : BitVec 12) : BitVec 16) := by decide
  rw [h, formatI, BitVec.and_append, BitVec.and_append]
  simp only [and_ones4, and_ones8, BitVec.and_zero]

theorem formatR_masked (op : BitVec 4) (x y : Reg) (n : Nibble) : formatR op x y n &&& 0xF000#16 = op ++ 0#12 :=
  formatA_masked op _

theorem formatR_masked_sub (op : BitVec 4) (x y : Reg) (n : Nibble) :
    formatR op x y n &&& 0xF00F#16 = op ++ (0#4 ++ (0#4 ++ n : BitVec 8) : BitVec 12) := by
  have h : (0xF00F#16) = (0xF#4 ++ (0#4 ++ (0#4 ++ 0xF#4 : BitVec 8) : BitVec 12) : BitVec 16) := by decide
  rw [h, formatR, BitVec.and_append, BitVec.and_append, BitVec.and_append]
  simp only [and_ones4, BitVec.and_zero]

end Sys2Proof

namespace Sys2Proof.Laws.OpcodeRow

/-- The row of R95 applies to the instruction's word. -/
def Statement (i : Instr) : Prop := encode i &&& i.rowMask = i.rowMatch

theorem sys (nnn : Addr12) : Statement (.sys nnn) := formatA_masked _ _
theorem cls : Statement .cls := by unfold Statement; decide
theorem ret : Statement .ret := by unfold Statement; decide
theorem jp (nnn : Addr12) : Statement (.jp nnn) := formatA_masked _ _
theorem call (nnn : Addr12) : Statement (.call nnn) := formatA_masked _ _
theorem seImm (x : Reg) (nn : Byte) : Statement (.seImm x nn) := formatI_masked _ _ _
theorem sneImm (x : Reg) (nn : Byte) : Statement (.sneImm x nn) := formatI_masked _ _ _
theorem seReg (x y : Reg) : Statement (.seReg x y) := formatR_masked_sub _ _ _ _
theorem ldImm (x : Reg) (nn : Byte) : Statement (.ldImm x nn) := formatI_masked _ _ _
theorem addImm (x : Reg) (nn : Byte) : Statement (.addImm x nn) := formatI_masked _ _ _
theorem ldReg (x y : Reg) : Statement (.ldReg x y) := formatR_masked_sub _ _ _ _
theorem orReg (x y : Reg) : Statement (.orReg x y) := formatR_masked_sub _ _ _ _
theorem andReg (x y : Reg) : Statement (.andReg x y) := formatR_masked_sub _ _ _ _
theorem xorReg (x y : Reg) : Statement (.xorReg x y) := formatR_masked_sub _ _ _ _
theorem addReg (x y : Reg) : Statement (.addReg x y) := formatR_masked_sub _ _ _ _
theorem subReg (x y : Reg) : Statement (.subReg x y) := formatR_masked_sub _ _ _ _
theorem shr (x y : Reg) : Statement (.shr x y) := formatR_masked_sub _ _ _ _
theorem subnReg (x y : Reg) : Statement (.subnReg x y) := formatR_masked_sub _ _ _ _
theorem shl (x y : Reg) : Statement (.shl x y) := formatR_masked_sub _ _ _ _
theorem sneReg (x y : Reg) : Statement (.sneReg x y) := formatR_masked_sub _ _ _ _
theorem ldI (nnn : Addr12) : Statement (.ldI nnn) := formatA_masked _ _
theorem jpV0 (nnn : Addr12) : Statement (.jpV0 nnn) := formatA_masked _ _
theorem rnd (x : Reg) (nn : Byte) : Statement (.rnd x nn) := formatI_masked _ _ _
theorem drw (x y : Reg) (n : Nibble) : Statement (.drw x y n) := formatR_masked _ _ _ _
theorem skp (x : Reg) : Statement (.skp x) := formatI_masked_sub _ _ _
theorem sknp (x : Reg) : Statement (.sknp x) := formatI_masked_sub _ _ _
theorem ldVxDt (x : Reg) : Statement (.ldVxDt x) := formatI_masked_sub _ _ _
theorem ldVxK (x : Reg) : Statement (.ldVxK x) := formatI_masked_sub _ _ _
theorem ldDtVx (x : Reg) : Statement (.ldDtVx x) := formatI_masked_sub _ _ _
theorem ldStVx (x : Reg) : Statement (.ldStVx x) := formatI_masked_sub _ _ _
theorem addIVx (x : Reg) : Statement (.addIVx x) := formatI_masked_sub _ _ _
theorem ldFVx (x : Reg) : Statement (.ldFVx x) := formatI_masked_sub _ _ _
theorem ldBVx (x : Reg) : Statement (.ldBVx x) := formatI_masked_sub _ _ _
theorem storeRegs (x : Reg) : Statement (.storeRegs x) := formatI_masked_sub _ _ _
theorem loadRegs (x : Reg) : Statement (.loadRegs x) := formatI_masked_sub _ _ _

end Sys2Proof.Laws.OpcodeRow
end

