-- ==== Sys2Proof/Tests/Slice0.lean ====
section
/-! SUPPORT. The model's own tests: expected results are the vectors of 95_test_vectors.md (T<n>) and words written out
from the encodings of 30_encoding.md R95. -/

namespace Sys2Proof.Tests

open Sys2Proof.Machine

/-- The state an outcome holds; the reset state where it stopped. -/
def outcome : Host.Outcome State Fault Refusal → State
  | .next t => t
  | .fault _ | .refused _ => State.reset

/-- The reset state with the registers listed set. -/
def fresh (regs : List (Reg × Byte)) : State := regs.foldl (fun s p => s.setReg p.1 p.2) State.reset

/-- The state after one step at a fresh machine whose word at 0x200 is w. -/
def ran (s : State) (w : Nat) : State := outcome (step (s.withFetchWord 16 w))

/-- The registers listed, as numbers. -/
def regsOf (s : State) (rs : List Reg) : List Nat := rs.map fun r => (s.reg r).toNat

/-- The memory bytes listed, as numbers. -/
def bytesOf (s : State) (as : List Nat) : List Nat := as.map fun a => (s.byteAt a).toNat

/-! ### Well-formedness: the one check of WellFormed refuses the two words that are CLS and RET (R93) -/

theorem test_sys_00E0_is_ill_formed : (Instr.sys 0x0E0).wf = false := by decide
theorem test_sys_00EE_is_ill_formed : (Instr.sys 0x0EE).wf = false := by decide
theorem test_sys_0123_is_well_formed : (Instr.sys 0x123).wf = true := by decide

/-! ### Decoding: words written out bit by bit from R95 -/

theorem test_decode_control_flow :
    decode 0b0000000100100011#16 = .ok (.sys 0x123) ∧ decode 0b0000000011101110#16 = .ok .ret ∧
    decode 0b0001001000000100#16 = .ok (.jp 0x204) ∧ decode 0b0010101010111100#16 = .ok (.call 0xABC) ∧
    decode 0b0011001101000100#16 = .ok (.seImm 3 0x44) ∧ decode 0b0100001101000101#16 = .ok (.sneImm 3 0x45) ∧
    decode 0b0101000100100000#16 = .ok (.seReg 1 2) ∧ decode 0b1001000100100000#16 = .ok (.sneReg 1 2) ∧
    decode 0b1011001100000000#16 = .ok (.jpV0 0x300) ∧ decode 0b1110001110011110#16 = .ok (.skp 3) ∧
    decode 0b1110001110100001#16 = .ok (.sknp 3) := by decide

theorem test_decode_register_ops :
    decode 0b0110000000000101#16 = .ok (.ldImm 0 5) ∧ decode 0b0111000000000011#16 = .ok (.addImm 0 3) ∧
    decode 0b1000000100100000#16 = .ok (.ldReg 1 2) ∧ decode 0b1000000100100001#16 = .ok (.orReg 1 2) ∧
    decode 0b1000000100100010#16 = .ok (.andReg 1 2) ∧ decode 0b1000000100100011#16 = .ok (.xorReg 1 2) ∧
    decode 0b1000000100100100#16 = .ok (.addReg 1 2) ∧ decode 0b1000000000010101#16 = .ok (.subReg 0 1) ∧
    decode 0b1000000100100110#16 = .ok (.shr 1 2) ∧ decode 0b1000000100100111#16 = .ok (.subnReg 1 2) ∧
    decode 0b1000000100101110#16 = .ok (.shl 1 2) ∧ decode 0b1100000000001111#16 = .ok (.rnd 0 0x0F) := by decide

theorem test_decode_memory_display_timers_input :
    decode 0b1010001100000000#16 = .ok (.ldI 0x300) ∧ decode 0b1111001000011110#16 = .ok (.addIVx 2) ∧
    decode 0b1111000000101001#16 = .ok (.ldFVx 0) ∧ decode 0b1111000000110011#16 = .ok (.ldBVx 0) ∧
    decode 0b1111001001010101#16 = .ok (.storeRegs 2) ∧ decode 0b1111001001100101#16 = .ok (.loadRegs 2) ∧
    decode 0b0000000011100000#16 = .ok .cls ∧ decode 0b1101000100100101#16 = .ok (.drw 1 2 5) ∧
    decode 0b1111001000000111#16 = .ok (.ldVxDt 2) ∧ decode 0b1111000000010101#16 = .ok (.ldDtVx 0) ∧
    decode 0b1111000000011000#16 = .ok (.ldStVx 0) ∧ decode 0b1111000100001010#16 = .ok (.ldVxK 1) := by decide

/-- T160: the illegal words. -/
theorem test_decode_rejects_by_name :
    decode 0x5121#16 = .error .family5 ∧ decode 0x9121#16 = .error .family9 ∧ decode 0x8018#16 = .error .family8 ∧
    decode 0x801F#16 = .error .family8 ∧ decode 0xE09F#16 = .error .familyE ∧ decode 0xE000#16 = .error .familyE ∧
    decode 0xF000#16 = .error .familyF ∧ decode 0xF066#16 = .error .familyF ∧ decode 0xFFFF#16 = .error .familyF ∧
    decodeBytes [0x60] = .error .tooShort := by decide

theorem test_decode_bytes_high_byte_first : decodeBytes [0x60, 0x05, 0x70] = .ok (.ldImm 0 5, [0x70]) := by decide
theorem test_decode_table_word : decodeTableWord 16 0x8015 = some (.subReg 0 1) := by decide

/-! ### Control flow (T20 to T41) -/

theorem test_sys_faults : (ran (fresh []) 0x0123).fr = .illegalInstruction ∧ (ran (fresh []) 0x0123).pc = 0x202 := by
  decide
theorem test_ret_underflow : (ran (fresh []) 0x00EE).fr = .stackUnderflow ∧ (ran (fresh []) 0x00EE).pc = 0x202 := by
  decide
theorem test_ret_pops :
    (ran { fresh [] with sp := 1, stk := Vector.replicate 16 0x206 } 0x00EE).pc = 0x206 ∧
    (ran { fresh [] with sp := 1, stk := Vector.replicate 16 0x206 } 0x00EE).sp = 0 := by decide
theorem test_jp_odd : (ran (fresh []) 0x1203).pc = 0x203 := by decide
theorem test_call_pushes :
    (ran (fresh []) 0x2ABC).pc = 0xABC ∧ (ran (fresh []) 0x2ABC).sp = 1 ∧ (ran (fresh []) 0x2ABC).stk[0] = 0x202 := by
  decide
theorem test_call_overflow :
    (ran { fresh [] with sp := 16 } 0x2200).fr = .stackOverflow ∧ (ran { fresh [] with sp := 16 } 0x2200).pc = 0x202 := by
  decide
theorem test_se_imm : (ran (fresh [(3, 0x44)]) 0x3344).pc = 0x204 ∧ (ran (fresh [(3, 0x44)]) 0x3345).pc = 0x202 := by
  decide
theorem test_sne_imm : (ran (fresh [(3, 0x44)]) 0x4344).pc = 0x202 ∧ (ran (fresh [(3, 0x44)]) 0x4345).pc = 0x204 := by
  decide
theorem test_se_reg : (ran (fresh []) 0x5AA0).pc = 0x204 ∧ (ran (fresh [(1, 1), (2, 2)]) 0x5120).pc = 0x202 := by decide
theorem test_sne_reg : (ran (fresh []) 0x9AA0).pc = 0x202 ∧ (ran (fresh [(1, 1), (2, 2)]) 0x9120).pc = 0x204 := by decide
theorem test_jp_v0 : (ran (fresh [(0, 0xFF)]) 0xBFFF).pc = 0x10FE ∧ (ran (fresh [(0, 4)]) 0xB300).pc = 0x304 := by decide
theorem test_skp_low_four_bits :
    (ran { fresh [(3, 0x1A)] with key := State.reset.key.set 10 true } 0xE39E).pc = 0x204 := by decide
theorem test_sknp :
    (ran { fresh [(3, 0x1A)] with key := State.reset.key.set 10 true } 0xE3A1).pc = 0x202 ∧
    (ran (fresh [(3, 0x0A)]) 0xE3A1).pc = 0x204 := by decide

/-! ### Register and ALU (T8, T9, T50 to T79) -/

theorem test_ld_imm : regsOf (ran (fresh []) 0x6FAB) [0xF] = [0xAB] := by decide
theorem test_add_imm_no_flag : regsOf (ran (fresh [(0, 0xFF)]) 0x7001) [0, 0xF] = [0, 0] := by decide
theorem test_ld_reg : regsOf (ran (fresh [(2, 0x3C)]) 0x8120) [1, 2] = [0x3C, 0x3C] := by decide
theorem test_or_keeps_vf :
    regsOf (ran (fresh [(0, 0xF0), (1, 0x0F), (0xF, 1)]) 0x8011) [0, 0xF] = [0xFF, 1] := by decide
theorem test_and : regsOf (ran (fresh [(0, 0xF0), (1, 0x3C)]) 0x8012) [0] = [0x30] := by decide
theorem test_xor : regsOf (ran (fresh [(0, 0xF0), (1, 0x3C)]) 0x8013) [0] = [0xCC] := by decide
theorem test_add_carry : regsOf (ran (fresh [(0, 0xC8), (1, 0x64)]) 0x8014) [0, 0xF] = [0x2C, 1] := by decide
theorem test_add_into_vf : regsOf (ran (fresh [(0xF, 0xFF), (0, 1)]) 0x8F04) [0, 0xF] = [1, 1] := by decide
theorem test_sub_borrow : regsOf (ran (fresh [(0, 3), (1, 5)]) 0x8015) [0, 1, 0xF] = [254, 5, 0] := by decide
theorem test_sub_equal_no_borrow : regsOf (ran (fresh [(0, 5), (1, 5)]) 0x8015) [0, 0xF] = [0, 1] := by decide
theorem test_subn : regsOf (ran (fresh [(0, 5), (1, 3)]) 0x8017) [0, 1, 0xF] = [0xFE, 3, 0] := by decide
theorem test_shr_ignores_y : regsOf (ran (fresh [(0, 5), (1, 0xF0)]) 0x8016) [0, 1, 0xF] = [2, 0xF0, 1] := by decide
theorem test_shl : regsOf (ran (fresh [(0, 0x81)]) 0x800E) [0, 0xF] = [2, 1] := by decide
theorem test_shl_of_vf : regsOf (ran (fresh [(0xF, 0x81)]) 0x8F0E) [0xF] = [1] := by decide

/-- T78 for every byte the oracle may yield: T78's 0xA7 is one of them. -/
theorem test_rnd_masks : (ran (fresh []) 0xC00F).reg 0 = Config.rand8 0 &&& 0x0F := by rfl
theorem test_rnd_asks_once : (ran (fresh []) 0xC00F).draws = 1 := by decide

/-! ### Index and memory (T90 to T107) -/

theorem test_ld_i : (ran { fresh [] with i := 0xFFFF } 0xA123).i = 0x0123 := by decide
theorem test_add_i : (ran { fresh [(2, 0x10)] with i := 0x300 } 0xF21E).i = 0x310 := by decide
theorem test_add_i_wraps : (ran { fresh [(0, 1)] with i := 0xFFFF } 0xF01E).i = 0 := by decide
theorem test_ld_f_low_four_bits : (ran (fresh [(0, 0x1A)]) 0xF029).i = 0x082 := by decide
theorem test_ld_b : bytesOf (ran { fresh [(0, 156)] with i := 0x300 } 0xF033) [0x300, 0x301, 0x302] = [1, 5, 6] := by decide
theorem test_ld_b_partial :
    bytesOf (ran { fresh [(0, 255)] with i := 0xFFE } 0xF033) [0xFFE, 0xFFF] = [2, 5] ∧
    (ran { fresh [(0, 255)] with i := 0xFFE } 0xF033).fr = .addressOutOfRange := by decide
/-- T104: the byte stored, and the one after it still FONT's. -/
theorem test_store_into_font :
    (outcome (exec (.storeRegs 0) { fresh [(0, 0x77)] with i := 0x50 })).byteAt 0x50 = 0x77 ∧
    (outcome (exec (.storeRegs 0) { fresh [(0, 0x77)] with i := 0x50 })).byteAt 0x51 = Config.font 1 := by
  have h (a : Nat) : (outcome (exec (.storeRegs 0) { fresh [(0, 0x77)] with i := 0x50 })).byteAt a =
      (Memory.set [] 0x50 0x77).get a := rfl
  rw [h, h]
  exact ⟨Memory.get_set_same .., (Memory.get_set_other _ _ (by decide)).trans (Memory.initial_font 1)⟩
theorem test_store_below_0x200 : bytesOf (ran { fresh [(0, 0x77)] with i := 0x4F } 0xF055) [0x4E, 0x4F] = [0, 0x77] := by
  decide
theorem test_store_partial :
    bytesOf (ran { fresh [(0, 0x11), (1, 0x22), (2, 0x33), (3, 0x44)] with i := 0xFFE } 0xF355) [0xFFE, 0xFFF] =
      [0x11, 0x22] ∧
    (ran { fresh [(0, 0x11), (1, 0x22), (2, 0x33), (3, 0x44)] with i := 0xFFE } 0xF355).ms = .faulted := by decide
/-- T105, whose bytes rest on the customary font. -/
theorem test_load_font (h : FontIsCustomary) :
    [0, 1, 4, 5, 6, 0xE, 0xF].map (ran { fresh [] with i := 0x50 } 0xFF65).reg =
      [0xF0#8, 0x90#8, 0xF0#8, 0x20#8, 0x60#8, 0xF0#8, 0xF0#8] := by
  have hf : [0, 1, 4, 5, 6, 0xE, 0xF].map (ran { fresh [] with i := 0x50 } 0xFF65).reg =
      [Config.font 0, Config.font 1, Config.font 4, Config.font 5, Config.font 6, Config.font 14, Config.font 15] := rfl
  rw [hf, h, h, h, h, h, h, h]
  rfl
/-- Glyph 5 of the table of R66. -/
theorem test_customary_glyph_5 : (customaryFont.drop 25).take 5 = [0xF0, 0x80, 0xF0, 0x10, 0xF0] ∧
    customaryFont.length = 80 := by decide
theorem test_load_own_bytes : regsOf (ran { fresh [] with i := 0x200 } 0xF165) [0, 1, 2] = [0xF1, 0x65, 0] := by decide

/-! ### Display (T2, T7, T110 to T118) -/

theorem test_cls :
    (ran { fresh [] with fb := Grid.fill 32 64 true } 0x00E0).pixel 31 63 = false ∧
    (ran (fresh []) 0x00E0).isDirty 31 7 = true ∧ (ran (fresh []) 0x00E0).drawp = true := by decide
/-- The bytes F0 80 F0 10 F0 at 0x300, and I there. -/
def sprite (s : State) : State := { s with i := 0x300, mem := s.mem.setBytes 0x300 [0xF0, 0x80, 0xF0, 0x10, 0xF0] }

theorem test_drw_wraps :
    (ran (sprite (fresh [(1, 62), (2, 30)])) 0xD125).pixel 1 1 = true ∧
    (ran (sprite (fresh [(1, 62), (2, 30)])) 0xD125).pixel 1 0 = false ∧
    (ran (sprite (fresh [(1, 62), (2, 30)])) 0xD125).isDirty 31 7 = true := by decide
theorem test_drw_collision :
    regsOf (ran { sprite (fresh []) with fb := Grid.fill 32 64 true } 0xD001) [0xF] = [1] ∧
    regsOf (ran (sprite (fresh [(0xF, 9)])) 0xD001) [0xF] = [0] := by decide

/-! ### Timers and sound (T130 to T137), with the rate given -/

theorem test_ld_vx_dt : regsOf (ran { fresh [] with dt := 8 } 0xF207) [2] = [8] := by decide
theorem test_ld_dt_vx : (outcome (exec (.ldDtVx 0) (fresh [(0, 10)]))).dt = 10 := by decide
theorem test_ld_st_vx : (outcome (exec (.ldStVx 0) (fresh [(0, 1)]))).soundActive = true := by decide
theorem test_tick_saturates : ({ fresh [] with st := 5 } : State).tick.dt = 0 ∧ ({ fresh [] with st := 5 } : State).tick.st = 4 := by
  decide
theorem test_prescaler_at_120 :
    (({ fresh [] with st := 2 } : State).prescaleAt 120).st = 2 ∧
    (({ fresh [] with st := 2, tacc := 60 } : State).prescaleAt 120).st = 1 ∧
    (({ fresh [] with st := 2, tacc := 60 } : State).prescaleAt 120).tacc = 0 := by decide
theorem test_fault_does_not_tick : (ran { fresh [] with dt := 5 } 0x0000).dt = 5 ∧ (ran { fresh [] with dt := 5 } 0x0000).tacc = 0 := by
  decide

/-! ### Input (T150 to T153) -/

theorem test_wait_rewinds : (ran (fresh [(5, 1)]) 0xF50A).pc = 0x200 ∧ regsOf (ran (fresh [(5, 1)]) 0xF50A) [5] = [1] := by decide
theorem test_wait_least_key :
    regsOf (ran { fresh [] with key := (State.reset.key.set 3 true).set 9 true } 0xF50A) [5] = [3] := by decide

/-! ### The step, the controller and the host (T1, T23, T139, T160, T162 to T166) -/

theorem test_fetch_fault_keeps_pc :
    (outcome (step { fresh [] with ms := .running, pc := 0xFFF })).pc = 0xFFF ∧
    (outcome (step { fresh [] with ms := .running, pc := 0xFFF })).fr = .addressOutOfRange := by decide
theorem test_illegal_word : (ran (fresh []) 0x5121).fr = .illegalInstruction ∧ (ran (fresh []) 0x5121).pc = 0x202 := by decide
theorem test_step_before_start : outcome (step State.reset) = State.reset := by decide
theorem test_fetch_word_is_load_and_start :
    State.reset.withFetchWord 16 0x6005 = (State.reset.loadProgram [0x60, 0x05]).2.start.2 := by decide
theorem test_start_not_loaded : State.reset.start = (.error .notLoaded, State.reset) := by decide
theorem test_start_clears_above_program :
    let s := { (fresh []) with loaded := true, ms := Lifecycle.faulted, fr := .stackUnderflow, romlen := 2,
                               mem := [(0x4F, 9), (0x201, 0xAA), (0x202, 0xBB)] }
    bytesOf s.start.2 [0x4F, 0x201, 0x202] = [0, 0xAA, 0] ∧ s.start.2.fr = .noFault := by decide
theorem test_start_restores_font :
    ({ (fresh []) with loaded := true, mem := [(0x50, 0)] } : State).start.2.byteAt 0x50 = Config.font 0 := by rfl
theorem test_load_in_faulted : ({ (fresh []) with ms := .faulted }.loadProgram [1]).2.ms = .faulted := by decide
theorem test_stop_in_faulted : ({ (fresh []) with ms := .faulted }.stop).2.ms = .faulted := by decide
theorem test_invalid_key : (fresh []).setKeyState 16 true = (.error .invalidKey, fresh []) := by decide
theorem test_read_pixel_wraps :
    ({ fresh [] with fb := (fresh []).fb.set 31 63 true } : State).readPixel 127 63 = true := by decide

/-! ### Witnesses: for each obligation with hypotheses, a concrete state and operands that meet them together, one for
each clause, at the boundaries of its range -/

/-- A Running machine at 0x200 whose next word is w. -/
def ready (w : Nat) : State := State.reset.withFetchWord 16 w

/-- The reset state with I set. -/
def at' (i : Word) : State := { State.reset with i := i }

/-- The reset state with SP set. -/
def depth (n : Fin 17) : State := { State.reset with sp := n }

/-- The reset state with one key down. -/
def pressed (k : Fin 16) : State := { State.reset with key := State.reset.key.set k.val true }

/-- The reset state with every pixel set. -/
def lit : State := { State.reset with fb := Grid.fill 32 64 true }

theorem witness_DecodeOfEncodeIsTheInstruction :
    (Instr.sys 0xFFF).wf = true ∧ (Instr.drw 0xF 0xF 0xF).wf = true ∧ Instr.ret.wf = true := by decide
theorem witness_EncodeOfDecodeIsTheWord : decode 0x8AB6#16 = .ok (.shr 0xA 0xB) := by decide
theorem witness_RowAppliesExactlyToItsWords :
    (∀ nnn, Instr.cls ≠ .sys nnn) ∧ 0x00E0#16 &&& Instr.cls.rowMask = Instr.cls.rowMatch ∧
    0x00E1#16 &&& Instr.cls.rowMask ≠ Instr.cls.rowMatch := by
  exact ⟨fun _ h => (by cases h), by decide, by decide⟩
theorem witness_WordsOfTheIllegalTable :
    faultingWord 0x0000 = true ∧ faultingWord 0xFFFF = true ∧ faultingWord 0x00E0 = false ∧ faultingWord 0xFF65 = false := by
  decide
theorem witness_FetchIsBigEndianAndFaultsAboveItsRange :
    (0xFFE#16).toNat ≤ 0xFFE ∧ ({ ready 0 with pc := 0xFFE } : State).ms = .running ∧
    0xFFE < (0xFFF#16).toNat ∧ ({ ready 0 with pc := 0xFFF } : State).ms = .running := by decide
theorem witness_StoreIsSeenByTheNextFetch :
    let s : State := { ready 0xF155 with pc := 0x202, i := 0x202, v := Vector.replicate 16 0x60 }
    1 ≤ (1#4).toNat ∧ s.base = s.pc.toNat ∧ s.base + (1#4).toNat ≤ 0xFFF ∧
      exec (.storeRegs 1) s = .next (outcome (exec (.storeRegs 1) s)) := ⟨by decide, rfl, by decide, rfl⟩
theorem witness_StepRunsTheDecodedInstruction :
    (ready 0x6005).ms = .running ∧ (ready 0x6005).pc.toNat ≤ 0xFFE ∧
    decode (wordOfBytes ((ready 0x6005).byteAt (ready 0x6005).pc.toNat)
      ((ready 0x6005).byteAt ((ready 0x6005).pc.toNat + 1))) = .ok (.ldImm 0 5) := by decide
theorem witness_EveryStepAnswersANextState : State.reset.ms ≠ .running := by decide

/-- The premises of the statements about one Running step: of a legal word, a SYS, and an illegal word. -/
theorem witness_IllegalInstructionExactlyOnFaultingWords :
    (∀ w ∈ [0x6005, 0x0123, 0xFFFF], (ready w).ms = .running ∧ (ready w).fr = .noFault) ∧
    step (ready 0x6005) = .next (ran State.reset 0x6005) ∧ (ran State.reset 0x6005).fr = .noFault ∧
    step (ready 0xFFFF) = .next (ran State.reset 0xFFFF) ∧ (ran State.reset 0xFFFF).fr = .illegalInstruction :=
  ⟨by decide, rfl, by decide, rfl, by decide⟩
theorem witness_StackFaultsOnlyFromCallAndRet :
    let s : State := { ready 0x2ABC with sp := 16 }
    s.ms = .running ∧ s.fr = .noFault ∧ step s = .next (outcome (step s)) ∧ (outcome (step s)).fr = .stackOverflow ∧
    step (ready 0x00EE) = .next (ran State.reset 0x00EE) ∧ (ran State.reset 0x00EE).fr = .stackUnderflow :=
  ⟨by decide, by decide, rfl, by decide, rfl, by decide⟩
theorem witness_AddressOutOfRangeExactlyWhere :
    let s : State := { ready 0xF155 with i := 0xFFF }
    s.ms = .running ∧ s.fr = .noFault ∧ step s = .next (outcome (step s)) ∧ (outcome (step s)).fr = .addressOutOfRange ∧
    HostOp.stop ≠ .step ∧ perform s .stop = .next (.done, { s with ms := .stopped }) :=
  ⟨by decide, by decide, rfl, by decide, by decide, rfl⟩
theorem witness_PreciseFaultsChangeNothingElse :
    (ready 0x0123).ms = .running ∧ (ready 0x0123).fr = .noFault ∧
    step (ready 0x0123) = .next (ran State.reset 0x0123) ∧ (ran State.reset 0x0123).fr = .illegalInstruction :=
  ⟨by decide, by decide, rfl, by decide⟩
theorem witness_StepsDriveTheTimers :
    (ready 0x0123).ms = .running ∧ step (ready 0x0123) = .next (ran State.reset 0x0123) ∧
    (ran State.reset 0x0123).ms = .faulted ∧
    (ready 0x6005).ms = .running ∧ (ready 0x6005).fetch = .ok 0x6005 ∧ decode 0x6005#16 = .ok (.ldImm 0 5) ∧
    step (ready 0x6005) = .next (ran State.reset 0x6005) ∧ (ran State.reset 0x6005).ms = .running ∧
    (∀ x, Instr.ldImm 0 5 ≠ .ldDtVx x) ∧ (∀ x, Instr.ldImm 0 5 ≠ .ldStVx x) :=
  ⟨by decide, rfl, by decide, by decide, by rfl, by decide, rfl, by decide, by decide, by decide⟩
theorem witness_TickDecrementsAndSaturates :
    let s : State := { State.reset with dt := 1, st := 0 }
    let t : State := { State.reset with dt := 0, st := 0xFF }
    0 < s.dt.toNat ∧ s.st.toNat = 0 ∧ t.dt.toNat = 0 ∧ 0 < t.st.toNat := by decide
theorem witness_PrescalerTicksExactly : 60 ≤ 60 ∧ 60 ≤ 700 ∧ State.reset.tacc = 0 := by decide
theorem witness_invariant_of_ready : (ready 0x6005).Inv where
  memory := by decide
  pcRange := by decide
  liveStack := fun k h => absurd h (Nat.not_lt_zero _)
  accumulator := Nat.lt_of_lt_of_le (by decide) Config_cpuHz_ge
  faultReason := by decide
  lifecycle := by decide
  programLength := by decide
theorem witness_StepKeepsTheInvariant : (ready 0x6005).Inv ∧ step (ready 0x6005) = .next (ran State.reset 0x6005) :=
  ⟨witness_invariant_of_ready, rfl⟩
theorem witness_HostOperationsKeepTheInvariant :
    (ready 0x6005).Inv ∧ perform (ready 0x6005) .stop = .next (.done, { ready 0x6005 with ms := .stopped }) ∧
    perform (ready 0x6005) .step = .next (.done, ran State.reset 0x6005) := ⟨witness_invariant_of_ready, rfl, rfl⟩
theorem witness_SpecialStateIsWrittenOnlyByItsInstructions :
    exec (.ldImm 0 5) State.reset = .next (State.reset.setReg 0 5) ∧ (Instr.ldImm 0 5).mayMovePc = false ∧
    exec .ret State.reset = .next (State.reset.raise .stackUnderflow) := ⟨rfl, rfl, rfl⟩
theorem witness_RegistersOutsideTheDestinationsAreUnchanged :
    exec (.addReg 0 1) State.reset = .next ((State.reset.setReg 0 0).setReg vf 0) ∧ (Instr.addReg 0 1).mayWriteReg 1 = false ∧
    (Instr.loadRegs 2).mayWriteReg 3 = false ∧ (Instr.drw 0 1 5).mayWriteReg 0 = false := ⟨rfl, rfl, rfl, rfl⟩
theorem witness_MemoryOutsideTheStoredBytesIsUnchanged :
    exec (.storeRegs 2) (at' 0x300) = .next (outcome (exec (.storeRegs 2) (at' 0x300))) ∧
    0x2FF < (at' 0x300).base ∧ (at' 0x300).base + (Instr.storedBytes (.storeRegs 2)) ≤ 0x303 := ⟨rfl, by decide, by decide⟩
theorem witness_ChangedPixelsAreDirtyAndDrawPending :
    exec .cls lit = .next (outcome (exec .cls lit)) ∧ (outcome (exec .cls lit)).pixel 31 63 ≠ lit.pixel 31 63 ∧
    (State.clearDirty lit).isDirty 31 7 = false := ⟨rfl, by decide, by decide⟩
theorem witness_TrackersNeverSteerTheProgram :
    let s : State := { ready 0xD001 with drawp := true }
    SameButTrackers s (ready 0xD001) ∧ s ≠ ready 0xD001 ∧ step s = .next (outcome (step s)) ∧
    step (ready 0xD001) = .next (outcome (step (ready 0xD001))) := ⟨rfl, by decide, rfl, rfl⟩
theorem witness_DeadSlotsNeverSteerTheProgram :
    let s : State := { ready 0x2ABC with sp := 1, stk := Vector.replicate 16 0x206 }
    let s' : State := { ready 0x2ABC with sp := 1, stk := (Vector.replicate 16 0x208).set 0 0x206 }
    SameButDeadSlots s s' ∧ s ≠ s' ∧ step s = .next (outcome (step s)) ∧ step s' = .next (outcome (step s')) :=
  ⟨⟨rfl, by decide⟩, by decide, rfl, rfl⟩
theorem witness_RetPopsOrUnderflows :
    (depth 0).sp.val = 0 ∧ (depth 1).sp.val = (0 : Fin 16).val + 1 ∧ (depth 16).sp.val = (15 : Fin 16).val + 1 ∧
    State.reset.Inv := by
  exact ⟨by decide, by decide, by decide,
    ⟨by decide, by decide, fun k h => absurd h (Nat.not_lt_zero _), Nat.lt_of_lt_of_le (by decide) Config_cpuHz_ge,
      by decide, by decide, by decide⟩⟩
theorem witness_JpSetsPc : 0xFFE < (0xFFF#12).toNat := by decide
theorem witness_CallPushesOrOverflows :
    (depth 16).sp.val = 16 ∧ (depth 0).sp.val = (0 : Fin 16).val ∧ (depth 15).sp.val = (15 : Fin 16).val := by decide
theorem witness_RetComesBackAfterTheCall :
    (depth 15).sp.val < 16 ∧ exec (.call 0x300) (depth 15) = .next (outcome (exec (.call 0x300) (depth 15))) := ⟨by decide, rfl⟩
theorem witness_KeySkips : (3 : Fin 16).val = ((State.reset.setReg 0 0xF3).reg 0).toNat % 16 := by decide
theorem witness_AddAndSubtractWithFlag : (0xE#4) ≠ vf ∧ (0xF#4) = vf := by decide
theorem witness_LdBStoresTheDigits : (at' 0xFFD).base + 2 ≤ 0xFFF := by decide
theorem witness_RegisterStoreAndLoad : (at' 0xFFF).base + (0#4).toNat ≤ 0xFFF ∧ (at' 0xFF0).base + (15#4).toNat ≤ 0xFFF := by
  decide
theorem witness_OutOfRangeMovesStopPartWay :
    0xFFF < (at' 0xFFE).base + 2 ∧ 0xFFF < (at' 0xFFF).base + (1#4).toNat ∧ 0xFFF < (at' 0xFFFF).base + (0#4).toNat := by
  decide
theorem witness_SetPixelToggleFlipsOnePixel :
    (31 : Fin 32).val = 63 % 32 ∧ (63 : Fin 64).val = 127 % 64 ∧ (7 : Fin 8).val = (63 : Fin 64).val / 8 := by decide
theorem witness_DrwDrawsTheSprite :
    (∀ r, r < (15#4).toNat → (at' 0xFF1).base + r ≤ 0xFFF) ∧ (∀ r, r < (0#4).toNat → (at' 0xFFFF).base + r ≤ 0xFFF) := by
  decide
theorem witness_DrwStopsAtTheFirstRowOutOfRange :
    (1#4).toNat < (5#4).toNat ∧ (∀ r, r < (1#4).toNat → (at' 0xFFF).base + r ≤ 0xFFF) ∧
    0xFFF < (at' 0xFFF).base + (1#4).toNat := by decide
theorem witness_WaitForKey :
    (∀ k, State.reset.keyDown k = false) ∧ (pressed 15).keyDown 15 = true ∧
    (∀ j, j < (15 : Fin 16) → (pressed 15).keyDown j = false) := by decide
theorem witness_RefusedHostOperationsChangeNothing :
    perform State.reset .start = .next (.error .notLoaded, State.reset) := by rfl

/-- The five lifecycle states of a machine that agrees with LOADED, and the two sides of the size limit. -/
theorem witness_LifecycleTable :
    (∀ m ∈ [Lifecycle.loaded, .running, .stopped, .faulted],
      ({ ready 0 with ms := m } : State).ms = .uninitialized ↔ ({ ready 0 with ms := m } : State).loaded = false) ∧
    (State.reset.ms = .uninitialized ↔ State.reset.loaded = false) ∧
    (List.replicate 0x0E00 (0 : Byte)).length ≤ 0x0E00 ∧ 0x0E00 < (List.replicate 0x0E01 (0 : Byte)).length := by
  refine ⟨by decide, by decide, ?_, ?_⟩
  · rw [List.length_replicate]
  · rw [List.length_replicate]; decide
theorem witness_LoadThenStartPlacesTheProgram :
    State.reset.ms ≠ .running ∧ (List.replicate 0x0E00 (0 : Byte)).length ≤ 0x0E00 ∧ ([] : List Byte).length ≤ 0x0E00 := by
  refine ⟨by decide, ?_, by decide⟩
  rw [List.length_replicate]
theorem witness_RestartKeepsTheProgramAreaOnly :
    let s : State := { ready 0x6005 with ms := .stopped }
    perform s .start = .next (.done, s.start.2) ∧ 0x200 ≤ 0x201 ∧ 0x201 < 0x200 + s.romlen := ⟨rfl, by decide, by decide⟩
theorem witness_FaultedIsLeftOnlyByStart :
    let s := ran State.reset 0x0000
    s.ms = .faulted ∧ HostOp.step ≠ .start ∧ perform s .step = .next (.done, s) ∧
    perform s (.loadProgram [1]) = .next (.done, (s.loadProgram [1]).2) := ⟨by decide, by decide, rfl, rfl⟩
theorem witness_KeyOperations : 0xF < 16 ∧ (15 : Fin 16).val = 15 := by decide
theorem witness_DisplayOperations : (0 : Fin 32).val = 32 % 32 ∧ (63 : Fin 64).val = 127 % 64 := by decide
/-- The program range of one byte, 0x200, and the bytes on its two sides. -/
theorem witness_HostWritesOnlyItsOwnState :
    HostOp.loadProgram [0x60] ≠ .step ∧ HostOp.loadProgram [0x60] ≠ .start ∧
    perform State.reset (.loadProgram [0x60]) = .next (.done, (State.reset.loadProgram [0x60]).2) ∧
    perform State.reset .clearDirty = .next (.done, State.reset.clearDirty) ∧
    (∀ rom, HostOp.clearDirty ≠ .loadProgram rom) ∧ 0x1FF < 0x200 ∧ 0x200 + [(0x60 : Byte)].length ≤ 0x201 :=
  ⟨by decide, by decide, rfl, rfl, (fun _ h => by cases h), by decide, by decide⟩

end Sys2Proof.Tests
end

section
/-! PROOFS of the family 10_state.md: what every step keeps of the machine's state, and what an instruction leaves
alone. First, said once for all 35 instructions, which writes an instruction may make; the frames and the invariant
follow by induction over those writes. -/

namespace Sys2Proof.Machine

/-! ### The writes of an instruction -/

/-- The writes instruction `i` may make from state `s`, one after another: each constructor is one write, with the
instructions it belongs to and the values it may write. -/
inductive Writes (i : Instr) (s : State) : State → Prop
  | nothing : Writes i s s
  | setReg {t : State} {r : Reg} {b : Byte} (hi : i.mayWriteReg r = true) (h : Writes i s t) :
      Writes i s (t.setReg r b)
  | raise {t : State} {f : FaultReason} (hf : f ≠ .noFault) (h : Writes i s t) : Writes i s (t.raise f)
  | jump {t : State} {w : Word} (hi : i.mayMovePc = true)
      (hw : w.toNat ≤ 0x10FE ∨ w = s.pc + 2 ∨ w = s.pc - 2) (h : Writes i s t) : Writes i s (t.jump w)
  | setIndex {t : State} {w : Word}
      (hi : (∃ nnn, i = .ldI nnn) ∨ (∃ x, i = .addIVx x) ∨ ∃ x, i = .ldFVx x) (h : Writes i s t) :
      Writes i s { t with i := w }
  | setDelay {t : State} {x : Reg} {b : Byte} (hi : i = .ldDtVx x) (h : Writes i s t) : Writes i s { t with dt := b }
  | setSound {t : State} {x : Reg} {b : Byte} (hi : i = .ldStVx x) (h : Writes i s t) : Writes i s { t with st := b }
  | setDisplay {t : State} {fb : Grid Config.rows Config.columns} {dirty : Grid Config.rows Config.buckets}
      {drawp : Bool} (hi : i = .cls ∨ ∃ x y n, i = .drw x y n) (h : Writes i s t) :
      Writes i s { t with fb := fb, dirty := dirty, drawp := drawp }
  | ask {t : State} {x : Reg} {nn : Byte} (hi : i = .rnd x nn) (h : Writes i s t) : Writes i s t.rand8.2
  | store {t : State} {a : Nat} {b : Byte} (hlo : s.base ≤ a) (hhi : a < s.base + i.storedBytes)
      (ha : a ≤ Config.memTop) (h : Writes i s t) : Writes i s { t with mem := t.mem.set a b }
  | call {nnn : Addr12} (hi : i = .call nnn) (hs : s.sp.val < Config.stackDepth) :
      Writes i s { s with
        stk := s.stk.set s.sp.val s.pc hs, sp := ⟨s.sp.val + 1, Nat.succ_lt_succ hs⟩, pc := addrOperand nnn }
  | ret (hi : i = .ret) (hs : 0 < s.sp.val) :
      Writes i s { s with sp := ⟨s.sp.val - 1, by omega⟩, pc := s.stk[s.sp.val - 1]'(by omega) }

/-! ### The shared operations make only such writes -/

theorem State.memRead_cases (s : State) (a : Nat) :
    s.memRead a = .error .addressOutOfRange ∨ s.memRead a = .ok (s.byteAt a) := by
  rcases Nat.lt_or_ge Config.memTop a with ha | ha
  · exact .inl (s.memRead_of_gt ha)
  · exact .inr (s.memRead_of_le ha)

theorem Writes.skipIf {i : Instr} {s : State} (hi : i.mayMovePc = true) (c : Bool) : Writes i s (s.skipIf c) := by
  cases c with
  | false => exact .nothing
  | true => exact .jump hi (.inr (.inl rfl)) .nothing

theorem Writes.storeBytes {i : Instr} {s t : State} {a : Nat} {bs : List Byte} (h : Writes i s t)
    (hlo : s.base ≤ a) (hhi : a + bs.length ≤ s.base + i.storedBytes) : Writes i s (t.storeBytes a bs) := by
  induction bs generalizing t a with
  | nil => exact h
  | cons b bs ih =>
    rw [List.length_cons] at hhi
    rcases Nat.lt_or_ge Config.memTop a with ha | ha
    · rw [State.storeBytes, t.memWrite_of_gt b ha]
      exact .raise (by decide) h
    · rw [State.storeBytes, t.memWrite_of_le b ha]
      exact ih (.store hlo (by omega) ha h) (by omega) (by omega)

theorem Writes.loadBytes {i : Instr} {s t : State} {a : Nat} {rs : List Reg} (h : Writes i s t)
    (hi : ∀ r ∈ rs, i.mayWriteReg r = true) : Writes i s (t.loadBytes a rs) := by
  induction rs generalizing t a with
  | nil => exact h
  | cons r rs ih =>
    obtain ⟨hr, hrs⟩ := List.forall_mem_cons.mp hi
    rcases t.memRead_cases a with ha | ha
    · rw [State.loadBytes, ha]
      exact .raise (by decide) h
    · rw [State.loadBytes, ha]
      exact ih (.setReg hr h) hrs

theorem Writes.toggleOne {x y : Reg} {n : Nibble} {s t : State} (h : Writes (.drw x y n) s t) (p : Nat × Nat) :
    Writes (.drw x y n) s (t.toggleOne p) := by
  have htoggled : Writes (.drw x y n) s (t.togglePixel p.1 p.2).2 := .setDisplay (.inr ⟨x, y, n, rfl⟩) h
  dsimp only [State.toggleOne]
  split
  · exact .setReg rfl htoggled
  · exact htoggled

theorem Writes.toggleAll {x y : Reg} {n : Nibble} {s t : State} (h : Writes (.drw x y n) s t)
    (ps : List (Nat × Nat)) : Writes (.drw x y n) s (t.toggleAll ps) := by
  induction ps generalizing t with
  | nil => exact h
  | cons p ps ih => exact ih (h.toggleOne p)

theorem Writes.drawRows {x y : Reg} {n : Nibble} {s t : State} (h : Writes (.drw x y n) s t) (x0 y0 base : Nat)
    (rs : List Nat) : Writes (.drw x y n) s (t.drawRows x0 y0 base rs) := by
  induction rs generalizing t with
  | nil => exact h
  | cons r rs ih =>
    rcases t.memRead_cases (base + r) with ha | ha
    · rw [State.drawRows, ha]
      exact .raise (by decide) h
    · rw [State.drawRows, ha]
      exact ih (t.drawColumns_eq_toggleAll x0 (y0 + r) _ _ ▸ h.toggleAll _)

theorem toNat_addrOperand (nnn : Addr12) : (addrOperand nnn).toNat = nnn.toNat :=
  BitVec.toNat_setWidth_of_le (by decide)

/-- A jump target NNN is at most 0xFFF, and NNN + V0 at most 0x10FE (R24). -/
theorem toNat_addrOperand_add_byteOperand_le (nnn : Addr12) (b : Byte) :
    (addrOperand nnn + byteOperand b).toNat ≤ 0x10FE := by
  have hb : (byteOperand b).toNat = b.toNat := BitVec.toNat_setWidth_of_le (by decide)
  have := nnn.isLt
  have := b.isLt
  rw [BitVec.toNat_add, toNat_addrOperand, hb]
  omega

theorem toNat_addrOperand_le (nnn : Addr12) : (addrOperand nnn).toNat ≤ 0x10FE := by
  have := nnn.isLt
  rw [toNat_addrOperand]
  omega

/-! ### Every instruction answers a next state and makes only its own writes -/

theorem exec_next_writes (i : Instr) (s : State) : ∃ t, exec i s = .next t ∧ Writes i s t := by
  cases i with
  | sys nnn => exact ⟨_, rfl, .raise (by decide) .nothing⟩
  | cls => exact ⟨_, rfl, .setDisplay (.inl rfl) .nothing⟩
  | ret =>
    rcases Nat.eq_zero_or_pos s.sp.val with hs | hs
    · exact ⟨_, exec_ret_of_empty hs, .raise (by decide) .nothing⟩
    · exact ⟨_, exec_ret_of_some hs, .ret rfl hs⟩
  | call nnn =>
    rcases Nat.lt_or_ge s.sp.val Config.stackDepth with hs | hs
    · exact ⟨_, exec_call_of_room nnn hs, .call rfl hs⟩
    · exact ⟨_, exec_call_of_full nnn (by omega), .raise (by decide) .nothing⟩
  | jp nnn => exact ⟨_, rfl, .jump rfl (.inl (toNat_addrOperand_le nnn)) .nothing⟩
  | jpV0 nnn => exact ⟨_, rfl, .jump rfl (.inl (toNat_addrOperand_add_byteOperand_le nnn _)) .nothing⟩
  | seImm _ _ | sneImm _ _ | seReg _ _ | sneReg _ _ | skp _ | sknp _ => exact ⟨_, rfl, .skipIf rfl _⟩
  | ldImm x _ | addImm x _ | ldReg x _ | orReg x _ | andReg x _ | xorReg x _ | ldVxDt x =>
    exact ⟨_, rfl, .setReg (beq_self_eq_true x) .nothing⟩
  | addReg x _ | subReg x _ | shr x _ | subnReg x _ | shl x _ =>
    exact ⟨_, rfl, .setReg (by simp [Instr.mayWriteReg]) (.setReg (by simp [Instr.mayWriteReg]) .nothing)⟩
  | rnd x _ => exact ⟨_, rfl, .setReg (beq_self_eq_true x) (.ask rfl .nothing)⟩
  | ldI nnn => exact ⟨_, rfl, .setIndex (.inl ⟨nnn, rfl⟩) .nothing⟩
  | addIVx x => exact ⟨_, rfl, .setIndex (.inr (.inl ⟨x, rfl⟩)) .nothing⟩
  | ldFVx x => exact ⟨_, rfl, .setIndex (.inr (.inr ⟨x, rfl⟩)) .nothing⟩
  | ldDtVx _ => exact ⟨_, rfl, .setDelay rfl .nothing⟩
  | ldStVx _ => exact ⟨_, rfl, .setSound rfl .nothing⟩
  | ldVxK x =>
    cases hk : s.leastKeyDown with
    | none => exact ⟨_, exec_ldVxK_of_none x hk, .jump rfl (.inr (.inr rfl)) .nothing⟩
    | some k => exact ⟨_, exec_ldVxK_of_some x hk, .setReg (beq_self_eq_true x) .nothing⟩
  | drw x y n =>
    have hbegun : Writes (.drw x y n) s s.beginDraw :=
      .setDisplay (.inr ⟨x, y, n, rfl⟩) (.setReg (r := vf) rfl .nothing)
    exact ⟨_, rfl, hbegun.drawRows _ _ _ _⟩
  | ldBVx x => exact ⟨_, rfl, .storeBytes .nothing (Nat.le_refl _) (Nat.le_refl _)⟩
  | storeRegs x =>
    exact ⟨_, rfl, .storeBytes .nothing (Nat.le_refl _) (by rw [List.length_map, length_regsUpTo]; rfl)⟩
  | loadRegs x =>
    exact ⟨_, rfl, .loadBytes .nothing fun r hr => decide_eq_true ((mem_regsUpTo x r).mp hr)⟩

theorem exec_writes {i : Instr} {s t : State} (h : exec i s = .next t) : Writes i s t := by
  obtain ⟨u, hu, hw⟩ := exec_next_writes i s
  rw [hu] at h
  cases h
  exact hw

/-! ### What the writes leave alone -/

section
variable {i : Instr} {s t : State} (h : Writes i s t)
include h

theorem Writes.reg {r : Reg} (hr : i.mayWriteReg r = false) : t.reg r = s.reg r := by
  induction h with
  | nothing => rfl
  | @setReg u q b hi _ ih =>
    have hne : r ≠ q := by rintro rfl; simp [hr] at hi
    exact (u.reg_setReg_other b hne).trans ih
  | call | ret => rfl
  | _ => assumption

theorem Writes.sameHostSide : SameHostSide s t := by
  induction h with
  | nothing | call | ret => exact ⟨rfl, rfl, rfl⟩
  | _ => assumption

theorem Writes.tacc : t.tacc = s.tacc := by
  induction h with
  | nothing | call | ret => rfl
  | _ => assumption

theorem Writes.pc (hi : i.mayMovePc = false) : t.pc = s.pc := by
  induction h with
  | nothing => rfl
  | jump hm => simp [hi] at hm
  | call hc => subst hc; cases hi
  | ret hr => subst hr; cases hi
  | _ => assumption

theorem Writes.dt (hi : ∀ x, i ≠ .ldDtVx x) : t.dt = s.dt := by
  induction h with
  | nothing | call | ret => rfl
  | setDelay hx => exact absurd hx (hi _)
  | _ => assumption

theorem Writes.st (hi : ∀ x, i ≠ .ldStVx x) : t.st = s.st := by
  induction h with
  | nothing | call | ret => rfl
  | setSound hx => exact absurd hx (hi _)
  | _ => assumption

theorem Writes.index (hl : ∀ nnn, i ≠ .ldI nnn) (ha : ∀ x, i ≠ .addIVx x) (hf : ∀ x, i ≠ .ldFVx x) : t.i = s.i := by
  induction h with
  | nothing | call | ret => rfl
  | setIndex hx =>
    rcases hx with ⟨nnn, hx⟩ | ⟨x, hx⟩ | ⟨x, hx⟩
    · exact absurd hx (hl nnn)
    · exact absurd hx (ha x)
    · exact absurd hx (hf x)
  | _ => assumption

theorem Writes.stk (hi : ∀ nnn, i ≠ .call nnn) : t.stk = s.stk := by
  induction h with
  | nothing | ret => rfl
  | call hc => exact absurd hc (hi _)
  | _ => assumption

theorem Writes.sp (hi : ∀ nnn, i ≠ .call nnn) (hr : i ≠ .ret) : t.sp = s.sp := by
  induction h with
  | nothing => rfl
  | call hc => exact absurd hc (hi _)
  | ret hx => exact absurd hx hr
  | _ => assumption

theorem Writes.sameDisplay (hc : i ≠ .cls) (hd : ∀ x y n, i ≠ .drw x y n) : SameDisplay s t := by
  induction h with
  | nothing | call | ret => exact ⟨rfl, rfl, rfl⟩
  | setDisplay hx =>
    rcases hx with hx | ⟨x, y, n, hx⟩
    · exact absurd hx hc
    · exact absurd hx (hd x y n)
  | _ => assumption

theorem Writes.draws (hi : ∀ x nn, i ≠ .rnd x nn) : t.draws = s.draws := by
  induction h with
  | nothing | call | ret => rfl
  | ask hx => exact absurd hx (hi _ _)
  | _ => assumption

/-- MS and FR change together, by a fault (R34, R205). -/
theorem Writes.status : SameStatus s t ∨ (t.ms = .faulted ∧ t.fr ≠ .noFault) := by
  induction h with
  | nothing | call | ret => exact .inl ⟨rfl, rfl⟩
  | raise hf => exact .inr ⟨rfl, hf⟩
  | _ => assumption

end

/-- Settles O21, by cases over the writes an instruction may make. -/
theorem specialStateIsWrittenOnlyByItsInstructions : Obligations.SpecialStateIsWrittenOnlyByItsInstructions := by
  intro i s t h
  have hw := exec_writes h
  exact ⟨hw.sameHostSide, hw.tacc, hw.pc, hw.dt, hw.st, hw.index, fun hi => ⟨hw.stk hi, hw.sp hi⟩, hw.sameDisplay,
    hw.draws, hw.status⟩

/-- Settles O22, by induction over the writes an instruction may make. -/
theorem registersOutsideTheDestinationsAreUnchanged : Obligations.RegistersOutsideTheDestinationsAreUnchanged :=
  fun _ _ _ _ h hr => (exec_writes h).reg hr

end Sys2Proof.Machine
end

section
/-! PROOFS: the invariant, at construction and over every step. -/

namespace Sys2Proof.Machine

/-! ### The writes that touch what the invariant speaks of -/

/-- The entry into a fault, of a machine that has a program (R205). -/
theorem State.Inv.raise {s : State} (h : s.Inv) (hl : s.loaded = true) {f : FaultReason} (hf : f ≠ .noFault) :
    (s.raise f).Inv :=
  { h with
    faultReason := by simp [hf]
    lifecycle := by simp [hl] }

theorem State.Inv.jump {s : State} (h : s.Inv) {w : Word} (hw : w.toNat ≤ 0x10FE) : (s.jump w).Inv :=
  { h with pcRange := hw }

theorem State.Inv.store {s : State} (h : s.Inv) {a : Nat} (b : Byte) (ha : a ≤ Config.memTop) :
    State.Inv { s with mem := s.mem.set a b } :=
  { h with memory := Memory.wf_set b h.memory ha }

/-- A CALL from a PC of at most 0x1000 pushes a live return address of at most 0x1000 (R122, R124). -/
theorem State.Inv.call {s : State} (h : s.Inv) (hpc : s.pc.toNat ≤ 0x1000) (nnn : Addr12)
    (hs : s.sp.val < Config.stackDepth) :
    State.Inv { s with
      stk := s.stk.set s.sp.val s.pc hs, sp := ⟨s.sp.val + 1, Nat.succ_lt_succ hs⟩, pc := addrOperand nnn } :=
  { h with
    pcRange := toNat_addrOperand_le nnn
    liveStack := fun k hk => by
      have hk : k.val < s.sp.val + 1 := hk
      rw [Vector.getElem_set]
      split
      · exact hpc
      · exact h.liveStack k (by omega) }

theorem State.Inv.ret {s : State} (h : s.Inv) (hs : 0 < s.sp.val) :
    State.Inv { s with sp := ⟨s.sp.val - 1, by omega⟩, pc := s.stk[s.sp.val - 1]'(by omega) } :=
  { h with
    pcRange := Nat.le_trans (h.liveStack ⟨s.sp.val - 1, by omega⟩ (Nat.sub_lt hs Nat.one_pos)) (by decide)
    liveStack := fun k hk => h.liveStack k (Nat.lt_of_lt_of_le hk (Nat.sub_le _ _)) }

/-- The prescaler leaves TACC below CPU_HZ, as CPU_HZ is at least 60 (R36, R226). -/
theorem State.Inv.prescale {s : State} (h : s.Inv) : s.prescale.Inv :=
  { h with
    accumulator := by
      have := h.accumulator
      have := Config_cpuHz_ge
      have : Config.timerHz = 60 := rfl
      rw [State.prescale, State.prescaleAt_tacc]
      split <;> omega }

theorem State.Inv.endStep {s : State} (h : s.Inv) : s.endStep.Inv := by
  unfold State.endStep
  split
  · exact h.prescale
  · exact h

/-! ### Instructions and steps -/

/-- The writes of an instruction keep the invariant from a fetched PC, which R220 has advanced by 2. -/
theorem Writes.inv {i : Instr} {s t : State} (h : Writes i s t) (hinv : s.Inv) (hl : s.loaded = true)
    (hlo : 2 ≤ s.pc.toNat) (hhi : s.pc.toNat ≤ 0x1000) : t.Inv := by
  induction h with
  | nothing => exact hinv
  | raise hf hu ih =>
    obtain ⟨-, hloaded, -⟩ := hu.sameHostSide
    exact ih.raise (hloaded.trans hl) hf
  | jump _ hw _ ih =>
    refine ih.jump ?_
    rcases hw with hw | rfl | rfl
    · exact hw
    · bv_omega
    · bv_omega
  | store _ _ ha _ ih => exact ih.store _ ha
  | call _ hs => exact hinv.call hhi _ hs
  | ret _ hs => exact hinv.ret hs
  | setReg _ _ ih | setIndex _ _ ih | setDelay _ _ ih | setSound _ _ ih | setDisplay _ _ ih | ask _ _ ih =>
    exact { ih with }

/-- A Running machine has a program (R211). -/
theorem State.Inv.loaded_of_running {s : State} (h : s.Inv) (hr : s.ms = .running) : s.loaded = true := by
  have := h.lifecycle
  simpa [hr] using this

/-- The PC of a fetched instruction is at most 0xFFE, so that its advance does not wrap (R64, R220). -/
theorem State.toNat_advancePc_pc {s : State} {w : Word} (h : s.fetch = .ok w) :
    s.advancePc.pc.toNat = s.pc.toNat + 2 ∧ s.pc.toNat ≤ 0xFFE := by
  obtain ⟨hpc, -⟩ := (s.fetch_ok_iff w).mp h
  have : Config.memTop = 0xFFF := rfl
  rw [State.advancePc_pc]
  constructor <;> bv_omega

theorem State.Inv.advancePc {s : State} {w : Word} (h : s.Inv) (hf : s.fetch = .ok w) : s.advancePc.Inv := by
  obtain ⟨hadv, hpc⟩ := State.toNat_advancePc_pc hf
  exact h.jump (by rw [← State.advancePc_pc, hadv]; omega)

/-- Settles O18, by cases over what a step can do. -/
theorem stepKeepsTheInvariant : Obligations.StepKeepsTheInvariant := by
  intro s t h hstep
  rcases step_cases s with ⟨-, hs⟩ | ⟨hr, -, hs⟩ | ⟨w, e, hr, hf, -, hs⟩ | ⟨w, i, hr, hf, -, hs⟩ <;> rw [hs] at hstep
  · cases hstep
    exact h
  · cases hstep
    exact h.raise (h.loaded_of_running hr) (by decide)
  · cases hstep
    exact (h.advancePc hf).raise (h.loaded_of_running hr) (by decide)
  · obtain ⟨u, hu, hw⟩ := exec_next_writes i s.advancePc
    obtain ⟨hadv, hpc⟩ := State.toNat_advancePc_pc hf
    rw [hu] at hstep
    cases hstep
    exact (hw.inv (h.advancePc hf) (h.loaded_of_running hr) (by omega) (by omega)).endStep

theorem State.inv_reset : State.reset.Inv where
  memory := by decide
  pcRange := by decide
  liveStack := fun _ hk => absurd hk (Nat.not_lt_zero _)
  accumulator := Nat.lt_of_lt_of_le (by decide) Config_cpuHz_ge
  faultReason := by decide
  lifecycle := by decide
  programLength := by decide

/-- Construction leaves nothing for the reset sequence to change (R39, R252). -/
theorem State.resetSequence_reset : State.reset.resetSequence = State.reset := rfl

/-- Settles O19: the state at construction is one the reset sequence leaves. -/
theorem resetMeetsTheInvariant : Obligations.ResetMeetsTheInvariant := by
  refine ⟨State.inv_reset, ?_, rfl, rfl, rfl, rfl, fun k => ?_⟩
  · rw [← State.resetSequence_reset]
    exact State.hasResetValues_resetSequence _
  · simp [State.keyDown, State.reset]

end Sys2Proof.Machine
end

section
/-! PROOFS: the dead stack slots never steer a program. Two machines that differ in them alone are one machine under two
stacks of slots, and every instruction but CALL and RET does the same under both. -/

namespace Sys2Proof.Machine

/-! ### A machine under another stack of slots -/

/-- The state with its stack slots replaced. -/
def State.withStk (s : State) (k : Vector Word Config.stackDepth) : State := { s with stk := k }

/-- The slots of `k` agree with those of `s` below SP. -/
def State.SameLiveSlots (s : State) (k : Vector Word Config.stackDepth) : Prop :=
  ∀ j : Fin Config.stackDepth, j.val < s.sp.val → k[j.val] = s.stk[j.val]

theorem sameButDeadSlots_iff {s s' : State} :
    SameButDeadSlots s s' ↔ ∃ k, s' = s.withStk k ∧ s.SameLiveSlots k := by
  constructor
  · rintro ⟨he, hlive⟩
    exact ⟨s'.stk, by rw [← he]; rfl, hlive⟩
  · rintro ⟨k, rfl, hlive⟩
    exact ⟨rfl, hlive⟩

theorem State.SameLiveSlots.congr {s t : State} {k : Vector Word Config.stackDepth} (h : s.SameLiveSlots k)
    (hsp : t.sp = s.sp) (hstk : t.stk = s.stk) : t.SameLiveSlots k := by
  unfold State.SameLiveSlots
  rw [hsp, hstk]
  exact h

/-! ### The shared operations do the same under any slots -/

section
variable (s : State) (k : Vector Word Config.stackDepth)

theorem State.skipIf_withStk (c : Bool) : (s.withStk k).skipIf c = (s.skipIf c).withStk k := by cases c <;> rfl

theorem State.storeBytes_withStk (a : Nat) (bs : List Byte) :
    (s.withStk k).storeBytes a bs = (s.storeBytes a bs).withStk k := by
  induction bs generalizing s a with
  | nil => rfl
  | cons b bs ih =>
    rcases Nat.lt_or_ge Config.memTop a with ha | ha
    · rw [State.storeBytes, State.storeBytes, State.memWrite_of_gt _ b ha, State.memWrite_of_gt _ b ha]
      rfl
    · rw [State.storeBytes, State.storeBytes, State.memWrite_of_le _ b ha, State.memWrite_of_le _ b ha]
      exact ih { s with mem := s.mem.set a b } (a + 1)

theorem State.loadBytes_withStk (a : Nat) (rs : List Reg) :
    (s.withStk k).loadBytes a rs = (s.loadBytes a rs).withStk k := by
  induction rs generalizing s a with
  | nil => rfl
  | cons r rs ih =>
    have hread : (s.withStk k).memRead a = s.memRead a := rfl
    rw [State.loadBytes, State.loadBytes, hread]
    cases s.memRead a with
    | error f => rfl
    | ok b => exact ih (s.setReg r b) (a + 1)

theorem State.toggleOne_withStk (p : Nat × Nat) : (s.withStk k).toggleOne p = (s.toggleOne p).withStk k := by
  show (if (s.togglePixel p.1 p.2).1 then _ else _) = _
  dsimp only [State.toggleOne]
  split <;> rfl

theorem State.toggleAll_withStk (ps : List (Nat × Nat)) : (s.withStk k).toggleAll ps = (s.toggleAll ps).withStk k :=
  List.foldl_hom (State.withStk · k) fun t p => t.toggleOne_withStk k p

theorem State.drawRows_withStk (x0 y0 base : Nat) (rs : List Nat) :
    (s.withStk k).drawRows x0 y0 base rs = (s.drawRows x0 y0 base rs).withStk k := by
  induction rs generalizing s with
  | nil => rfl
  | cons r rs ih =>
    have hread : (s.withStk k).memRead (base + r) = s.memRead (base + r) := rfl
    rw [State.drawRows, State.drawRows, hread]
    cases s.memRead (base + r) with
    | error f => rfl
    | ok b =>
      dsimp only
      rw [State.drawColumns_eq_toggleAll, State.drawColumns_eq_toggleAll, State.toggleAll_withStk]
      exact ih _

theorem State.endStep_withStk : (s.withStk k).endStep = s.endStep.withStk k := by
  show (if s.ms = .running then _ else _) = _
  unfold State.endStep
  split <;> rfl

theorem State.endStep_sp : s.endStep.sp = s.sp := by
  unfold State.endStep
  split <;> rfl

theorem State.endStep_stk : s.endStep.stk = s.stk := by
  unfold State.endStep
  split <;> rfl

end

/-! ### Instructions -/

/-- An instruction that does not use the stack does the same under any slots. -/
theorem exec_withStk {i : Instr} {s t : State} (k : Vector Word Config.stackDepth) (hc : ∀ nnn, i ≠ .call nnn)
    (hr : i ≠ .ret) (h : exec i s = .next t) : exec i (s.withStk k) = .next (t.withStk k) := by
  cases i with
  | call nnn => exact absurd rfl (hc nnn)
  | ret => exact absurd rfl hr
  | seImm _ _ | sneImm _ _ | seReg _ _ | sneReg _ _ | skp _ | sknp _ =>
    cases h
    exact congrArg _ (s.skipIf_withStk k _)
  | ldVxK x =>
    cases hk : s.leastKeyDown with
    | none =>
      rw [exec_ldVxK_of_none x hk] at h
      cases h
      exact exec_ldVxK_of_none x hk
    | some n =>
      rw [exec_ldVxK_of_some x hk] at h
      cases h
      exact exec_ldVxK_of_some x hk
  | drw _ _ _ =>
    cases h
    exact congrArg _ (s.beginDraw.drawRows_withStk k _ _ _ _)
  | ldBVx _ | storeRegs _ =>
    cases h
    exact congrArg _ (s.storeBytes_withStk k _ _)
  | loadRegs _ =>
    cases h
    exact congrArg _ (s.loadBytes_withStk k _ _)
  | _ =>
    cases h
    rfl

theorem exec_ret_withStk {s t : State} {k : Vector Word Config.stackDepth} (hk : s.SameLiveSlots k)
    (h : exec .ret s = .next t) : exec .ret (s.withStk k) = .next (t.withStk k) ∧ t.SameLiveSlots k := by
  rcases Nat.eq_zero_or_pos s.sp.val with hs | hs
  · rw [exec_ret_of_empty hs] at h
    cases h
    exact ⟨exec_ret_of_empty (s := s.withStk k) hs, hk⟩
  · rw [exec_ret_of_some hs] at h
    cases h
    have htop : k[s.sp.val - 1] = s.stk[s.sp.val - 1] :=
      hk ⟨s.sp.val - 1, by omega⟩ (Nat.sub_lt hs Nat.one_pos)
    refine ⟨(exec_ret_of_some (s := s.withStk k) hs).trans ?_, fun j hj => hk j (Nat.lt_of_lt_of_le hj (Nat.sub_le _ _))⟩
    rw [← htop]
    rfl

theorem exec_call_withStk {nnn : Addr12} {s t : State} {k : Vector Word Config.stackDepth} (hk : s.SameLiveSlots k)
    (h : exec (.call nnn) s = .next t) :
    ∃ k', exec (.call nnn) (s.withStk k) = .next (t.withStk k') ∧ t.SameLiveSlots k' := by
  rcases Nat.lt_or_ge s.sp.val Config.stackDepth with hs | hs
  · rw [exec_call_of_room nnn hs] at h
    cases h
    refine ⟨k.set s.sp.val s.pc hs, exec_call_of_room (s := s.withStk k) nnn hs, fun j hj => ?_⟩
    have hj : j.val < s.sp.val + 1 := hj
    rw [Vector.getElem_set, Vector.getElem_set]
    split
    · rfl
    · exact hk j (by omega)
  · have hfull : s.sp.val = Config.stackDepth := by omega
    rw [exec_call_of_full nnn hfull] at h
    cases h
    exact ⟨k, exec_call_of_full (s := s.withStk k) nnn hfull, hk⟩

theorem exec_sameButDeadSlots {i : Instr} {s s' t : State} (hs : SameButDeadSlots s s') (h : exec i s = .next t) :
    ∃ t', exec i s' = .next t' ∧ SameButDeadSlots t t' := by
  obtain ⟨k, rfl, hk⟩ := sameButDeadSlots_iff.mp hs
  by_cases hc : ∃ nnn, i = .call nnn
  · obtain ⟨nnn, rfl⟩ := hc
    obtain ⟨k', h', hk'⟩ := exec_call_withStk hk h
    exact ⟨_, h', sameButDeadSlots_iff.mpr ⟨k', rfl, hk'⟩⟩
  by_cases hr : i = .ret
  · subst hr
    obtain ⟨h', hk'⟩ := exec_ret_withStk hk h
    exact ⟨_, h', sameButDeadSlots_iff.mpr ⟨k, rfl, hk'⟩⟩
  · have hc : ∀ nnn, i ≠ .call nnn := not_exists.mp hc
    have hw := exec_writes h
    exact ⟨_, exec_withStk k hc hr h, sameButDeadSlots_iff.mpr ⟨k, rfl, hk.congr (hw.sp hc hr) (hw.stk hc)⟩⟩

/-! ### Steps -/

theorem step_of_not_running {s : State} (h : s.ms ≠ .running) : step s = .next s := if_neg h

theorem step_of_fetch_error {s : State} {f : FaultReason} (h : s.ms = .running) (hf : s.fetch = .error f) :
    step s = .next (s.raise f) := by
  simp only [step, stepOf, cycle, h, hf, if_true]

theorem step_of_illegal {s : State} {w : Word} {e : IllegalWord} (h : s.ms = .running) (hf : s.fetch = .ok w)
    (hd : decode w = .error e) : step s = .next (s.advancePc.raise .illegalInstruction) := by
  simp only [step, stepOf, cycle, runWord, h, hf, hd, if_true]

theorem step_of_decoded {s : State} {w : Word} {i : Instr} (h : s.ms = .running) (hf : s.fetch = .ok w)
    (hd : decode w = .ok i) : step s = endOutcome (exec i s.advancePc) := by
  simp only [step, stepOf, cycle, runWord, h, hf, hd, if_true]

theorem SameButDeadSlots.endStep {s s' : State} (h : SameButDeadSlots s s') :
    SameButDeadSlots s.endStep s'.endStep := by
  obtain ⟨k, rfl, hk⟩ := sameButDeadSlots_iff.mp h
  exact sameButDeadSlots_iff.mpr ⟨k, s.endStep_withStk k, hk.congr s.endStep_sp s.endStep_stk⟩

theorem step_sameButDeadSlots {s s' t : State} (hs : SameButDeadSlots s s') (h : step s = .next t) :
    ∃ t', step s' = .next t' ∧ SameButDeadSlots t t' := by
  obtain ⟨k, rfl, hk⟩ := sameButDeadSlots_iff.mp hs
  have hfetch : (s.withStk k).fetch = s.fetch := rfl
  rcases step_cases s with ⟨hr, hs⟩ | ⟨hr, hp, hs⟩ | ⟨w, e, hr, hf, hd, hs⟩ | ⟨w, i, hr, hf, hd, hs⟩ <;> rw [hs] at h
  · cases h
    exact ⟨_, step_of_not_running hr, sameButDeadSlots_iff.mpr ⟨k, rfl, hk⟩⟩
  · cases h
    have hf : s.fetch = .error .addressOutOfRange := by rw [State.fetch_eq, if_neg (by omega)]
    exact ⟨_, step_of_fetch_error hr (hfetch.trans hf), sameButDeadSlots_iff.mpr ⟨k, rfl, hk.congr rfl rfl⟩⟩
  · cases h
    exact ⟨_, step_of_illegal hr (hfetch.trans hf) hd, sameButDeadSlots_iff.mpr ⟨k, rfl, hk.congr rfl rfl⟩⟩
  · obtain ⟨u, hu, -⟩ := exec_next_writes i s.advancePc
    obtain ⟨u', hu', hsame⟩ := exec_sameButDeadSlots (s := s.advancePc) (s' := (s.withStk k).advancePc)
      (sameButDeadSlots_iff.mpr ⟨k, rfl, hk.congr rfl rfl⟩) hu
    rw [hu] at h
    cases h
    exact ⟨_, by rw [step_of_decoded (s := s.withStk k) hr (hfetch.trans hf) hd, hu']; rfl, hsame.endStep⟩

/-- Settles O26: the second machine has a step that leaves it differing in dead slots alone, and a machine has but one
step. -/
theorem deadSlotsNeverSteerTheProgram : Obligations.DeadSlotsNeverSteerTheProgram := by
  intro s s' t t' hs h h'
  obtain ⟨u, hu, hsame⟩ := step_sameButDeadSlots hs h
  rw [hu] at h'
  cases h'
  exact hsame

end Sys2Proof.Machine
end

section
/-! PROOFS of the family 20_memory.md: byte access, the fetch, and a store over the next instruction. -/

namespace Sys2Proof.Machine

/-! ### Byte access (R62, R63) -/

theorem State.memRead_congr {s t : State} {a : Nat} (h : t.byteAt a = s.byteAt a) : t.memRead a = s.memRead a := by
  rw [State.memRead, State.memRead, h]

/-- Settles O6: a store is one `Memory.set`, which changes what one address reads. -/
theorem memReadAndMemWrite : Obligations.MemReadAndMemWrite := by
  refine fun s a b => ⟨fun ha => ⟨s.memRead_of_gt ha, s.memWrite_of_gt b ha⟩, fun ha => ⟨s.memRead_of_le ha, ?_⟩⟩
  refine ⟨_, s.memWrite_of_le b ha, ?_, fun c hc => ?_, rfl⟩
  · rw [State.memRead_of_le _ ha, State.byteAt_with_mem, Memory.get_set_same]
  · exact State.memRead_congr (Memory.get_set_other _ _ hc)

/-! ### The fetch (R64) -/

theorem State.fetch_of_le {s : State} (h : s.pc.toNat ≤ 0xFFE) :
    s.fetch = .ok (wordOfBytes (s.byteAt s.pc.toNat) (s.byteAt (s.pc.toNat + 1))) :=
  s.fetch_eq.trans (if_pos (Nat.succ_le_succ h))

theorem State.fetch_of_gt {s : State} (h : 0xFFE < s.pc.toNat) : s.fetch = .error .addressOutOfRange :=
  s.fetch_eq.trans (if_neg (Nat.not_le_of_lt (Nat.succ_lt_succ h)))

/-- Settles O7: the high byte counts 256, and a fetch fault comes before the advance of PC. -/
theorem fetchIsBigEndianAndFaultsAboveItsRange : Obligations.FetchIsBigEndianAndFaultsAboveItsRange :=
  fun _ => ⟨fun hpc => ⟨_, State.fetch_of_le hpc, toNat_wordOfBytes _ _⟩,
    fun hpc => ⟨State.fetch_of_gt hpc, fun hrun => step_of_fetch_error hrun (State.fetch_of_gt hpc)⟩⟩

/-! ### The register store, read back (R74, R165) -/

theorem getD_map_reg_regsUpTo (s : State) {x r : Reg} (hr : r.toNat ≤ x.toNat) :
    ((regsUpTo x).map s.reg).getD r.toNat 0 = s.reg r := by
  have hlen : r.toNat < ((regsUpTo x).map s.reg).length := by rw [List.length_map, length_regsUpTo]; omega
  rw [List.getD_eq_getElem _ _ hlen]
  simp [regsUpTo]

/-- A register store that fits leaves V[r] in the byte at I + r. -/
theorem byteAt_of_exec_storeRegs {s t : State} {x r : Reg} (hfits : s.base + x.toNat ≤ Config.memTop)
    (h : exec (.storeRegs x) s = .next t) (hr : r.toNat ≤ x.toNat) : t.byteAt (s.base + r.toNat) = s.reg r := by
  rw [exec_storeRegs_of_fits x hfits] at h
  cases h
  have hin : s.base ≤ s.base + r.toNat ∧ s.base + r.toNat < s.base + ((regsUpTo x).map s.reg).length := by
    rw [List.length_map, length_regsUpTo]
    omega
  rw [State.byteAt_with_mem, Memory.get_setBytes, if_pos hin, Nat.add_sub_cancel_left, getD_map_reg_regsUpTo s hr]

/-- Settles O8: the store leaves PC alone, and the two bytes there are V0 and V1. -/
theorem storeIsSeenByTheNextFetch : Obligations.StoreIsSeenByTheNextFetch := by
  intro s t x hx hbase hfits h
  have hpc : t.pc.toNat = s.base := by rw [(exec_writes h).pc rfl, hbase]
  have hhi : t.byteAt s.base = s.reg 0 := byteAt_of_exec_storeRegs (r := 0) hfits h (Nat.zero_le _)
  have hlo : t.byteAt (s.base + 1) = s.reg 1 := byteAt_of_exec_storeRegs (r := 1) hfits h hx
  rw [State.fetch_of_le (by omega), hpc, hhi, hlo]

end Sys2Proof.Machine
end

section
/-! PROOFS of the family 30_encoding.md: the decoder undoes the encoder and the encoder the decoder, the rows of the opcode
map, and the table of illegal words. -/

namespace Sys2Proof.Machine

/-! ### A word against its fields (R91, R92) -/

theorem formatA_eq_iff {op : BitVec 4} {nnn : Addr12} {w : Word} :
    formatA op nnn = w ↔ opField w = op ∧ nnnField w = nnn := by
  constructor
  · rintro rfl
    exact ⟨opField_formatA op nnn, nnnField_formatA op nnn⟩
  · rintro ⟨rfl, rfl⟩
    exact formatA_of_fields w

theorem formatI_eq_iff {op : BitVec 4} {x : Reg} {nn : Byte} {w : Word} :
    formatI op x nn = w ↔ opField w = op ∧ xField w = x ∧ nnField w = nn := by
  constructor
  · rintro rfl
    exact ⟨opField_formatI op x nn, xField_formatI op x nn, nnField_formatI op x nn⟩
  · rintro ⟨rfl, rfl, rfl⟩
    exact formatI_of_fields w

theorem formatR_eq_iff {op : BitVec 4} {x y : Reg} {n : Nibble} {w : Word} :
    formatR op x y n = w ↔ opField w = op ∧ xField w = x ∧ yField w = y ∧ nField w = n := by
  constructor
  · rintro rfl
    exact ⟨opField_formatR op x y n, xField_formatR op x y n, yField_formatR op x y n, nField_formatR op x y n⟩
  · rintro ⟨rfl, rfl, rfl, rfl⟩
    exact formatR_of_fields w

/-- CLS and RET, the two words that R93 tests before the family, are of family 0. -/
theorem ne_cls_ret_of_opField {w : Word} (h : opField w ≠ 0x0#4) : w ≠ 0x00E0#16 ∧ w ≠ 0x00EE#16 := by
  constructor <;> rintro rfl <;> exact h rfl

/-- SYS is well-formed when its word is neither CLS nor RET (R93). -/
theorem wf_sys_iff {nnn : Addr12} :
    (Instr.sys nnn).wf = true ↔ formatA 0x0#4 nnn ≠ 0x00E0#16 ∧ formatA 0x0#4 nnn ≠ 0x00EE#16 := by
  have hcls : formatA 0x0#4 nnn = 0x00E0#16 ↔ nnn = 0x0E0#12 :=
    formatA_eq_iff.trans ((and_iff_right rfl).trans eq_comm)
  have hret : formatA 0x0#4 nnn = 0x00EE#16 ↔ nnn = 0x0EE#12 :=
    formatA_eq_iff.trans ((and_iff_right rfl).trans eq_comm)
  simp [Instr.wf, hcls, hret]

/-- The family that decode reaches last. -/
theorem opField_eq_of_ne {op : BitVec 4} (h0 : op ≠ 0x0#4) (h1 : op ≠ 0x1#4) (h2 : op ≠ 0x2#4) (h3 : op ≠ 0x3#4)
    (h4 : op ≠ 0x4#4) (h5 : op ≠ 0x5#4) (h6 : op ≠ 0x6#4) (h7 : op ≠ 0x7#4) (h8 : op ≠ 0x8#4) (h9 : op ≠ 0x9#4)
    (hA : op ≠ 0xA#4) (hB : op ≠ 0xB#4) (hC : op ≠ 0xC#4) (hD : op ≠ 0xD#4) (hE : op ≠ 0xE#4) : op = 0xF#4 := by
  bv_omega

/-! ### The families in which n or nn selects -/

section
variable {w : Word}

theorem decode_family5 (h : opField w = 0x5#4) :
    decode w = if nField w = 0x0#4 then .ok (.seReg (xField w) (yField w)) else .error .family5 := by
  simp [decode, ne_cls_ret_of_opField, h]

theorem decode_family8 (h : opField w = 0x8#4) : decode w = decode8 w := by
  simp [decode, ne_cls_ret_of_opField, h]

theorem decode_family9 (h : opField w = 0x9#4) :
    decode w = if nField w = 0x0#4 then .ok (.sneReg (xField w) (yField w)) else .error .family9 := by
  simp [decode, ne_cls_ret_of_opField, h]

theorem decode_familyE (h : opField w = 0xE#4) : decode w = decodeE w := by
  simp [decode, ne_cls_ret_of_opField, h]

theorem decode_familyF (h : opField w = 0xF#4) : decode w = decodeF w := by
  simp [decode, ne_cls_ret_of_opField, h]

end

/-! ### Decode after encode -/

theorem decode_encode {i : Instr} (h : i.wf = true) : decode (encode i) = .ok i := by
  cases i with
  | cls | ret => rfl
  | sys nnn => simp [encode, decode, wf_sys_iff.mp h, opField_formatA, nnnField_formatA]
  | jp | call | ldI | jpV0 => simp [encode, decode, ne_cls_ret_of_opField, opField_formatA, nnnField_formatA]
  | seImm | sneImm | ldImm | addImm | rnd =>
    simp [encode, decode, ne_cls_ret_of_opField, opField_formatI, xField_formatI, nnField_formatI]
  | seReg | sneReg | drw =>
    simp [encode, decode, ne_cls_ret_of_opField, opField_formatR, xField_formatR, yField_formatR, nField_formatR]
  | ldReg | orReg | andReg | xorReg | addReg | subReg | shr | subnReg | shl =>
    simp [encode, decode_family8, decode8, opField_formatR, xField_formatR, yField_formatR, nField_formatR]
  | skp | sknp => simp [encode, decode_familyE, decodeE, opField_formatI, xField_formatI, nnField_formatI]
  | ldVxDt | ldVxK | ldDtVx | ldStVx | addIVx | ldFVx | ldBVx | storeRegs | loadRegs =>
    simp [encode, decode_familyF, decodeF, opField_formatI, xField_formatI, nnField_formatI]

/-- Settles O2, by cases over the formats of R91: the decoder reads back every field that the format lays out. -/
theorem decodeOfEncodeIsTheInstruction : Obligations.DecodeOfEncodeIsTheInstruction :=
  fun _ => decode_encode

/-! ### The table of illegal words (R96) -/

/-- The n that the table lists of family 8 are those that select no instruction (R95 rows 11 to 19). -/
theorem family8_listed_iff : ∀ n : Nibble, [0x8#4, 0x9#4, 0xA#4, 0xB#4, 0xC#4, 0xD#4, 0xF#4].contains n = true ↔
    n ≠ 0x0#4 ∧ n ≠ 0x1#4 ∧ n ≠ 0x2#4 ∧ n ≠ 0x3#4 ∧ n ≠ 0x4#4 ∧ n ≠ 0x5#4 ∧ n ≠ 0x6#4 ∧ n ≠ 0x7#4 ∧ n ≠ 0xE#4 := by
  decide

/-- The table by what selects no instruction, family by family. -/
theorem faultingWord_iff {w : Word} : faultingWord w = true ↔
    (opField w = 0x0#4 ∧ w ≠ 0x00E0#16 ∧ w ≠ 0x00EE#16) ∨
    (opField w = 0x5#4 ∧ nField w ≠ 0x0#4) ∨
    (opField w = 0x8#4 ∧ nField w ≠ 0x0#4 ∧ nField w ≠ 0x1#4 ∧ nField w ≠ 0x2#4 ∧ nField w ≠ 0x3#4 ∧
      nField w ≠ 0x4#4 ∧ nField w ≠ 0x5#4 ∧ nField w ≠ 0x6#4 ∧ nField w ≠ 0x7#4 ∧ nField w ≠ 0xE#4) ∨
    (opField w = 0x9#4 ∧ nField w ≠ 0x0#4) ∨
    (opField w = 0xE#4 ∧ nnField w ≠ 0x9E#8 ∧ nnField w ≠ 0xA1#8) ∨
    (opField w = 0xF#4 ∧ nnField w ≠ 0x07#8 ∧ nnField w ≠ 0x0A#8 ∧ nnField w ≠ 0x15#8 ∧ nnField w ≠ 0x18#8 ∧
      nnField w ≠ 0x1E#8 ∧ nnField w ≠ 0x29#8 ∧ nnField w ≠ 0x33#8 ∧ nnField w ≠ 0x55#8 ∧ nnField w ≠ 0x65#8) := by
  simp only [faultingWord, Bool.or_eq_true, Bool.and_eq_true, family8_listed_iff, or_assoc, and_assoc]
  simp

/-! ### What the decoder answers -/

/-- A sound answer of the decoder for w: a well-formed instruction whose word is w, or a refusal of a word of the table
of R96. -/
def SoundFor (w : Word) : Except IllegalWord Instr → Prop
  | .ok i => encode i = w ∧ i.wf = true
  | .error _ => faultingWord w = true

section
variable {w : Word}

theorem decode8_sound (hop : opField w = 0x8#4) : SoundFor w (decode8 w) := by
  unfold decode8
  split_ifs
  case neg => simp [SoundFor, faultingWord_iff, *]
  all_goals exact ⟨formatR_eq_iff.mpr ⟨hop, rfl, rfl, ‹_›⟩, rfl⟩

theorem decodeE_sound (hop : opField w = 0xE#4) : SoundFor w (decodeE w) := by
  unfold decodeE
  split_ifs
  case neg => simp [SoundFor, faultingWord_iff, *]
  all_goals exact ⟨formatI_eq_iff.mpr ⟨hop, rfl, ‹_›⟩, rfl⟩

theorem decodeF_sound (hop : opField w = 0xF#4) : SoundFor w (decodeF w) := by
  unfold decodeF
  split_ifs
  case neg => simp [SoundFor, faultingWord_iff, *]
  all_goals exact ⟨formatI_eq_iff.mpr ⟨hop, rfl, ‹_›⟩, rfl⟩

end

/-- Each test of decode, in its order, fixes the bits of w that the answer does not carry. -/
theorem decode_sound (w : Word) : SoundFor w (decode w) := by
  unfold decode
  refine iteInduction (fun hcls => ⟨hcls.symm, rfl⟩) fun hcls => ?_
  refine iteInduction (fun hret => ⟨hret.symm, rfl⟩) fun hret => ?_
  refine iteInduction (fun h0 => ?_) fun h0 => ?_
  · have hw : formatA 0x0#4 (nnnField w) = w := formatA_eq_iff.mpr ⟨h0, rfl⟩
    exact ⟨hw, wf_sys_iff.mpr (by rw [hw]; exact ⟨hcls, hret⟩)⟩
  refine iteInduction (fun h1 => ⟨formatA_eq_iff.mpr ⟨h1, rfl⟩, rfl⟩) fun h1 => ?_
  refine iteInduction (fun h2 => ⟨formatA_eq_iff.mpr ⟨h2, rfl⟩, rfl⟩) fun h2 => ?_
  refine iteInduction (fun h3 => ⟨formatI_eq_iff.mpr ⟨h3, rfl, rfl⟩, rfl⟩) fun h3 => ?_
  refine iteInduction (fun h4 => ⟨formatI_eq_iff.mpr ⟨h4, rfl, rfl⟩, rfl⟩) fun h4 => ?_
  refine iteInduction (fun h5 => iteInduction (fun hn => ⟨formatR_eq_iff.mpr ⟨h5, rfl, rfl, hn⟩, rfl⟩)
    fun hn => faultingWord_iff.mpr (.inr (.inl ⟨h5, hn⟩))) fun h5 => ?_
  refine iteInduction (fun h6 => ⟨formatI_eq_iff.mpr ⟨h6, rfl, rfl⟩, rfl⟩) fun h6 => ?_
  refine iteInduction (fun h7 => ⟨formatI_eq_iff.mpr ⟨h7, rfl, rfl⟩, rfl⟩) fun h7 => ?_
  refine iteInduction decode8_sound fun h8 => ?_
  refine iteInduction (fun h9 => iteInduction (fun hn => ⟨formatR_eq_iff.mpr ⟨h9, rfl, rfl, hn⟩, rfl⟩)
    fun hn => faultingWord_iff.mpr (.inr (.inr (.inr (.inl ⟨h9, hn⟩))))) fun h9 => ?_
  refine iteInduction (fun hA => ⟨formatA_eq_iff.mpr ⟨hA, rfl⟩, rfl⟩) fun hA => ?_
  refine iteInduction (fun hB => ⟨formatA_eq_iff.mpr ⟨hB, rfl⟩, rfl⟩) fun hB => ?_
  refine iteInduction (fun hC => ⟨formatI_eq_iff.mpr ⟨hC, rfl, rfl⟩, rfl⟩) fun hC => ?_
  refine iteInduction (fun hD => ⟨formatR_eq_iff.mpr ⟨hD, rfl, rfl, rfl⟩, rfl⟩) fun hD => ?_
  refine iteInduction decodeE_sound fun hE => ?_
  exact decodeF_sound (opField_eq_of_ne h0 h1 h2 h3 h4 h5 h6 h7 h8 h9 hA hB hC hD hE)

/-- Settles O3: a word is its fields, so the format that an answer's fields are laid out in gives the word back. -/
theorem encodeOfDecodeIsTheWord : Obligations.EncodeOfDecodeIsTheWord := by
  intro w i h
  have hs := decode_sound w
  rwa [h] at hs

/-! ### The rows of the opcode map (R93, R95) -/

theorem opcodeRow (i : Instr) : Laws.OpcodeRow.Statement i := by
  cases i with
  | cls | ret => unfold Laws.OpcodeRow.Statement; decide
  | sys | jp | call | ldI | jpV0 => exact formatA_masked _ _
  | seImm | sneImm | ldImm | addImm | rnd => exact formatI_masked _ _ _
  | drw => exact formatR_masked _ _ _ _
  | seReg | ldReg | orReg | andReg | xorReg | addReg | subReg | shr | subnReg | shl | sneReg =>
    exact formatR_masked_sub _ _ _ _
  | skp | sknp | ldVxDt | ldVxK | ldDtVx | ldStVx | addIVx | ldFVx | ldBVx | storeRegs | loadRegs =>
    exact formatI_masked_sub _ _ _

section
variable {w : Word} {op : BitVec 4}

theorem opField_of_masked (h : w &&& 0xF000#16 = formatA op 0) : opField w = op := by
  rw [← formatA_of_fields w, formatA_masked] at h
  exact (formatA_eq_iff.mp h).1.symm.trans (opField_formatA op 0)

theorem formatA_of_masked (h : w &&& 0xF000#16 = formatA op 0) : formatA op (nnnField w) = w :=
  formatA_eq_iff.mpr ⟨opField_of_masked h, rfl⟩

theorem formatI_of_masked (h : w &&& 0xF000#16 = formatA op 0) : formatI op (xField w) (nnField w) = w :=
  formatI_eq_iff.mpr ⟨opField_of_masked h, rfl, rfl⟩

theorem formatR_of_masked (h : w &&& 0xF000#16 = formatA op 0) :
    formatR op (xField w) (yField w) (nField w) = w :=
  formatR_eq_iff.mpr ⟨opField_of_masked h, rfl, rfl, rfl⟩

theorem formatI_of_masked_sub {nn : Byte} (h : w &&& 0xF0FF#16 = formatI op 0 nn) :
    formatI op (xField w) nn = w := by
  rw [← formatI_of_fields w, formatI_masked_sub] at h
  obtain ⟨hop, -, hnn⟩ := formatI_eq_iff.mp h
  rw [opField_formatI] at hop
  rw [nnField_formatI] at hnn
  exact formatI_eq_iff.mpr ⟨hop.symm, rfl, hnn.symm⟩

theorem formatR_of_masked_sub {n : Nibble} (h : w &&& 0xF00F#16 = formatR op 0 0 n) :
    formatR op (xField w) (yField w) n = w := by
  rw [← formatR_of_fields w, formatR_masked_sub] at h
  obtain ⟨hop, -, -, hn⟩ := formatR_eq_iff.mp h
  rw [opField_formatR] at hop
  rw [nField_formatR] at hn
  exact formatR_eq_iff.mpr ⟨hop.symm, rfl, rfl, hn.symm⟩

end

/-- A row other than SYS that applies to w has a well-formed instruction whose word is w: its operands are w's fields. -/
theorem exists_encode_of_row {w : Word} {j : Instr} (hj : ∀ nnn, j ≠ .sys nnn) (h : w &&& j.rowMask = j.rowMatch) :
    ∃ i, encode i = w ∧ i.wf = true ∧ i.rowMask = j.rowMask ∧ i.rowMatch = j.rowMatch := by
  cases j with
  | sys nnn => exact absurd rfl (hj nnn)
  | cls => exact ⟨.cls, h.symm.trans BitVec.and_allOnes, rfl, rfl, rfl⟩
  | ret => exact ⟨.ret, h.symm.trans BitVec.and_allOnes, rfl, rfl, rfl⟩
  | jp => exact ⟨.jp _, formatA_of_masked h, rfl, rfl, rfl⟩
  | call => exact ⟨.call _, formatA_of_masked h, rfl, rfl, rfl⟩
  | seImm => exact ⟨.seImm _ _, formatI_of_masked h, rfl, rfl, rfl⟩
  | sneImm => exact ⟨.sneImm _ _, formatI_of_masked h, rfl, rfl, rfl⟩
  | seReg => exact ⟨.seReg _ _, formatR_of_masked_sub h, rfl, rfl, rfl⟩
  | ldImm => exact ⟨.ldImm _ _, formatI_of_masked h, rfl, rfl, rfl⟩
  | addImm => exact ⟨.addImm _ _, formatI_of_masked h, rfl, rfl, rfl⟩
  | ldReg => exact ⟨.ldReg _ _, formatR_of_masked_sub h, rfl, rfl, rfl⟩
  | orReg => exact ⟨.orReg _ _, formatR_of_masked_sub h, rfl, rfl, rfl⟩
  | andReg => exact ⟨.andReg _ _, formatR_of_masked_sub h, rfl, rfl, rfl⟩
  | xorReg => exact ⟨.xorReg _ _, formatR_of_masked_sub h, rfl, rfl, rfl⟩
  | addReg => exact ⟨.addReg _ _, formatR_of_masked_sub h, rfl, rfl, rfl⟩
  | subReg => exact ⟨.subReg _ _, formatR_of_masked_sub h, rfl, rfl, rfl⟩
  | shr => exact ⟨.shr _ _, formatR_of_masked_sub h, rfl, rfl, rfl⟩
  | subnReg => exact ⟨.subnReg _ _, formatR_of_masked_sub h, rfl, rfl, rfl⟩
  | shl => exact ⟨.shl _ _, formatR_of_masked_sub h, rfl, rfl, rfl⟩
  | sneReg => exact ⟨.sneReg _ _, formatR_of_masked_sub h, rfl, rfl, rfl⟩
  | ldI => exact ⟨.ldI _, formatA_of_masked h, rfl, rfl, rfl⟩
  | jpV0 => exact ⟨.jpV0 _, formatA_of_masked h, rfl, rfl, rfl⟩
  | rnd => exact ⟨.rnd _ _, formatI_of_masked h, rfl, rfl, rfl⟩
  | drw => exact ⟨.drw _ _ _, formatR_of_masked h, rfl, rfl, rfl⟩
  | skp => exact ⟨.skp _, formatI_of_masked_sub h, rfl, rfl, rfl⟩
  | sknp => exact ⟨.sknp _, formatI_of_masked_sub h, rfl, rfl, rfl⟩
  | ldVxDt => exact ⟨.ldVxDt _, formatI_of_masked_sub h, rfl, rfl, rfl⟩
  | ldVxK => exact ⟨.ldVxK _, formatI_of_masked_sub h, rfl, rfl, rfl⟩
  | ldDtVx => exact ⟨.ldDtVx _, formatI_of_masked_sub h, rfl, rfl, rfl⟩
  | ldStVx => exact ⟨.ldStVx _, formatI_of_masked_sub h, rfl, rfl, rfl⟩
  | addIVx => exact ⟨.addIVx _, formatI_of_masked_sub h, rfl, rfl, rfl⟩
  | ldFVx => exact ⟨.ldFVx _, formatI_of_masked_sub h, rfl, rfl, rfl⟩
  | ldBVx => exact ⟨.ldBVx _, formatI_of_masked_sub h, rfl, rfl, rfl⟩
  | storeRegs => exact ⟨.storeRegs _, formatI_of_masked_sub h, rfl, rfl, rfl⟩
  | loadRegs => exact ⟨.loadRegs _, formatI_of_masked_sub h, rfl, rfl, rfl⟩

/-- Settles O4: a row that applies to w has an instruction whose word is w, which w decodes to (O2); and a word that
decodes is the word of its instruction (O3), to which that instruction's row applies. -/
theorem rowAppliesExactlyToItsWords : Obligations.RowAppliesExactlyToItsWords := by
  intro w j hj
  constructor
  · intro h
    obtain ⟨i, rfl, hwf, hrow⟩ := exists_encode_of_row hj h
    exact ⟨i, decode_encode hwf, hrow⟩
  · rintro ⟨i, hd, hmask, hmatch⟩
    obtain ⟨rfl, -⟩ := encodeOfDecodeIsTheWord w i hd
    rw [← hmask, ← hmatch]
    exact opcodeRow i

/-! ### The words of the table (R96, R97) -/

theorem faultingWord_of_decode_sys {w : Word} {nnn : Addr12} (h : decode w = .ok (.sys nnn)) :
    faultingWord w = true := by
  obtain ⟨rfl, hwf⟩ := encodeOfDecodeIsTheWord w _ h
  exact faultingWord_iff.mpr (.inl ⟨opField_formatA _ _, wf_sys_iff.mp hwf⟩)

theorem decode_of_faultingWord {w : Word} (h : faultingWord w = true) :
    (∃ e, decode w = .error e) ∨ ∃ nnn, decode w = .ok (.sys nnn) := by
  rcases faultingWord_iff.mp h with ⟨h0, hne⟩ | ⟨h5, hn⟩ | ⟨h8, hn⟩ | ⟨h9, hn⟩ | ⟨hE, hnn⟩ | ⟨hF, hnn⟩
  · exact .inr ⟨nnnField w, by simp [decode, h0, hne]⟩
  · exact .inl ⟨.family5, by simp [decode_family5 h5, hn]⟩
  · exact .inl ⟨.family8, by simp [decode_family8 h8, decode8, hn]⟩
  · exact .inl ⟨.family9, by simp [decode_family9 h9, hn]⟩
  · exact .inl ⟨.familyE, by simp [decode_familyE hE, decodeE, hnn]⟩
  · exact .inl ⟨.familyF, by simp [decode_familyF hF, decodeF, hnn]⟩

/-- Settles O5, by cases over the families of the table; what the decoder refuses lies in it. -/
theorem wordsOfTheIllegalTable : Obligations.WordsOfTheIllegalTable := by
  intro w
  constructor
  · exact decode_of_faultingWord
  · rintro (⟨e, he⟩ | ⟨nnn, hsys⟩)
    · have hs := decode_sound w
      rwa [he] at hs
    · exact faultingWord_of_decode_sys hsys

/-- Settles O1, by evaluation. -/
theorem decodeOfWordsOfTheSpec : Obligations.DecodeOfWordsOfTheSpec := by
  unfold Obligations.DecodeOfWordsOfTheSpec
  decide

end Sys2Proof.Machine
end

section
/-! PROOFS of the family 40_control_flow.md: what the stack and the jumps leave, and the skips. -/

namespace Sys2Proof.Machine

/-! ### Jumps (R121, R123, R129) -/

/-- Settles O27: SYS is the raise of one fault (R205). -/
theorem sysRaisesIllegalInstruction : Obligations.SysRaisesIllegalInstruction := fun _ _ => rfl

/-- Settles O29: the widened NNN keeps its value, and a fetch above 0xFFE faults (R64). -/
theorem jpSetsPc : Obligations.JpSetsPc := by
  intro nnn s
  have hpc : (s.jump (addrOperand nnn)).pc.toNat = nnn.toNat := toNat_addrOperand nnn
  exact ⟨_, rfl, hpc, rfl, fun hnnn => State.fetch_of_gt (hpc ▸ hnnn)⟩

/-- The sum of JP V0 does not wrap in 16 bits: it is at most 0xFFF + 0xFF (R129, D12). -/
theorem toNat_addrOperand_add_byteOperand (nnn : Addr12) (b : Byte) :
    (addrOperand nnn + byteOperand b).toNat = nnn.toNat + b.toNat := by
  have hb : (byteOperand b).toNat = b.toNat := BitVec.toNat_setWidth_of_le (by decide)
  rw [BitVec.toNat_add_of_lt (by rw [toNat_addrOperand, hb]; omega), toNat_addrOperand, hb]

/-- Settles O33: the 16-bit sum is the sum of the numbers. -/
theorem jpV0AddsV0 : Obligations.JpV0AddsV0 :=
  fun nnn s => ⟨_, rfl, toNat_addrOperand_add_byteOperand nnn (s.reg 0), rfl⟩

/-! ### RET and CALL (R122, R124) -/

/-- RET with slot `k` the top of the stack. -/
theorem exec_ret_of_top {s : State} {k : Fin Config.stackDepth} (h : s.sp.val = k.val + 1) :
    exec .ret s = .next { s with sp := k.castSucc, pc := s.stk[k.val] } := by
  have hk : s.sp.val - 1 = k.val := by omega
  rw [exec_ret_of_some (by omega)]
  simp only [hk]
  rfl

/-- Settles O28: the slot that RET reads was live, so the invariant bounds it. -/
theorem retPopsOrUnderflows : Obligations.RetPopsOrUnderflows := by
  refine fun s => ⟨exec_ret_of_empty, fun k h => ⟨_, exec_ret_of_top h, rfl, rfl, fun hinv => ?_, rfl⟩⟩
  exact hinv.liveStack k (by omega)

/-- Settles O30: CALL sets one slot, the one at SP. -/
theorem callPushesOrOverflows : Obligations.CallPushesOrOverflows := by
  refine fun nnn s => ⟨exec_call_of_full nnn, fun ⟨k, hk⟩ h => ?_⟩
  obtain rfl : s.sp.val = k := h
  refine ⟨_, exec_call_of_room nnn hk, Vector.getElem_set_self hk, rfl, toNat_addrOperand nnn, fun j hj => ?_, rfl⟩
  exact Vector.getElem_set_ne hk j.isLt fun he => hj (Fin.ext he.symm)

/-- Settles O31: the top slot that RET reads is the one CALL has set. -/
theorem retComesBackAfterTheCall : Obligations.RetComesBackAfterTheCall := by
  intro nnn s t u hs hcall hsp hstk
  rw [exec_call_of_room nnn hs] at hcall
  cases hcall
  have htop : u.sp.val = s.sp.val + 1 := congrArg Fin.val hsp
  refine ⟨_, exec_ret_of_top (k := ⟨s.sp.val, hs⟩) htop, ?_, rfl⟩
  simp only [hstk, Vector.getElem_set_self]

/-! ### Skips (R120, R125 to R128, R130, R131) -/

/-- A skip writes PC alone, by the comparison that its condition decides. -/
theorem State.skipIf_eq_of_iff (s : State) {c : Bool} {p : Prop} [Decidable p] (h : c = true ↔ p) :
    s.skipIf c = { s with pc := if p then s.pc + 2 else s.pc } := by
  rw [← if_congr h rfl rfl]
  cases c <;> rfl

/-- Settles O32, each skip by what its boolean comparison decides. -/
theorem registerSkips : Obligations.RegisterSkips := fun _ _ _ s =>
  ⟨congrArg _ (s.skipIf_eq_of_iff beq_iff_eq), congrArg _ (s.skipIf_eq_of_iff bne_iff_ne),
    congrArg _ (s.skipIf_eq_of_iff beq_iff_eq), congrArg _ (s.skipIf_eq_of_iff bne_iff_ne)⟩

/-- The low four bits as a number (D14, D15). -/
theorem val_lowNibble (b : Byte) : (lowNibble b).val = b.toNat % 16 := by
  have hmask : (b &&& 0x0F#8).toNat = b.toNat % 16 := Nat.and_two_pow_sub_one_eq_mod b.toNat 4
  calc (lowNibble b).val = (b &&& 0x0F#8).toNat % 16 := rfl
    _ = b.toNat % 16 := by rw [hmask, Nat.mod_mod]

/-- Settles O34: the key tested is the one of the low four bits. -/
theorem keySkips : Obligations.KeySkips := by
  intro x k s hk
  have hkey : lowNibble (s.reg x) = k := Fin.ext ((val_lowNibble _).trans hk.symm)
  subst hkey
  exact ⟨congrArg _ (s.skipIf_eq_of_iff Iff.rfl), congrArg _ (s.skipIf_eq_of_iff (Bool.not_eq_true' _).to_iff)⟩

end Sys2Proof.Machine
end

section
/-! PROOFS of the family 41_register_ops.md: what one register write leaves, what a result with its flag leaves, and the
numbers that the flags are. -/

namespace Sys2Proof.Machine

/-! ### A result, then its flag (R140) -/

/-- The flags of a comparison: carry and no borrow (R153). -/
theorem toNat_flagByte_decide (p : Prop) [Decidable p] : (flagByte (decide p)).toNat = if p then 1 else 0 := by
  by_cases h : p
  · rw [decide_eq_true h, if_pos h]; rfl
  · rw [decide_eq_false h, if_neg h]; rfl

/-- The flags of a shift: the bit shifted out (R153). -/
theorem toNat_flagByte_getLsbD (a : Byte) (k : Nat) : (flagByte (a.getLsbD k)).toNat = a.toNat / 2 ^ k % 2 := by
  have hbit : (flagByte (a.getLsbD k)).toNat = (a.getLsbD k).toNat := by cases a.getLsbD k <;> rfl
  rw [hbit, ← BitVec.testBit_toNat, Nat.toNat_testBit]

theorem toNat_bit0Flag (a : Byte) : (bit0Flag a).toNat = a.toNat % 2 := by
  rw [bit0Flag, toNat_flagByte_getLsbD, Nat.pow_zero, Nat.div_one]

/-- Bit 7 of a byte is all that is left above its low seven bits. -/
theorem toNat_bit7Flag (a : Byte) : (bit7Flag a).toNat = a.toNat / 128 := by
  have := a.isLt
  rw [bit7Flag, toNat_flagByte_getLsbD]
  omega

theorem toNat_sub_byte (a b : Byte) : (a - b).toNat = (a.toNat + 256 - b.toNat) % 256 := by
  rw [BitVec.toNat_sub', ← Nat.add_sub_assoc b.isLt.le]

/-- What ADD, SUB, SUBN, SHR and SHL leave, in numbers: the flag in VF, the result in any other V[x], and nothing else
changed. -/
theorem exists_next_resultThenFlag {i : Instr} {s : State} {x : Reg} {b f : Byte} {result flag : Nat}
    (h : exec i s = .next (s.setRegThenFlag x b f)) (hf : f.toNat = flag) (hb : b.toNat = result) :
    ∃ t, exec i s = .next t ∧ (t.reg vf).toNat = flag ∧ (x ≠ vf → (t.reg x).toNat = result) ∧
      (∀ r, r ≠ x → r ≠ vf → t.reg r = s.reg r) ∧ { t with v := s.v } = s := by
  refine ⟨_, h, ?_, fun hx => ?_, fun r hrx hrf => ?_, rfl⟩
  · rw [State.reg_setRegThenFlag, if_pos rfl, hf]
  · rw [State.reg_setRegThenFlag, if_neg hx, if_pos rfl, hb]
  · rw [State.reg_setRegThenFlag, if_neg hrf, if_neg hrx]

/-- Settles O37: each has its result in V[x] before its flag goes to VF. -/
theorem addAndSubtractWithFlag : Obligations.AddAndSubtractWithFlag := fun x y s =>
  ⟨exists_next_resultThenFlag rfl (toNat_flagByte_decide _) (BitVec.toNat_add (s.reg x) (s.reg y)),
    exists_next_resultThenFlag rfl (toNat_flagByte_decide _) (toNat_sub_byte (s.reg x) (s.reg y)),
    exists_next_resultThenFlag rfl (toNat_flagByte_decide _) (toNat_sub_byte (s.reg y) (s.reg x))⟩

/-- Settles O38: a shift by one halves V[x], or doubles it modulo 256. -/
theorem shiftsInPlaceWithFlag : Obligations.ShiftsInPlaceWithFlag := by
  intro x y s
  have hright : (s.reg x >>> 1).toNat = (s.reg x).toNat / 2 := Nat.shiftRight_eq_div_pow _ 1
  have hleft : (s.reg x <<< 1).toNat = 2 * (s.reg x).toNat % 256 := by
    rw [BitVec.toNat_shiftLeft, Nat.shiftLeft_eq, Nat.mul_comm]
  exact ⟨exists_next_resultThenFlag rfl (toNat_bit0Flag _) hright,
    exists_next_resultThenFlag rfl (toNat_bit7Flag _) hleft⟩

/-! ### One register write (R141 to R146, R152) -/

theorem State.setReg_changes_only (s : State) (x : Reg) (b : Byte) :
    (∀ r, r ≠ x → (s.setReg x b).reg r = s.reg r) ∧ { s.setReg x b with v := s.v } = s :=
  ⟨fun _ hr => s.reg_setReg_other b hr, rfl⟩

/-- Settles O35: each is one register write. -/
theorem loadsAndAddImmediate : Obligations.LoadsAndAddImmediate := by
  refine fun x y nn s => ⟨⟨_, rfl, ?_, s.setReg_changes_only x _⟩, ⟨_, rfl, ?_, s.setReg_changes_only x _⟩,
    ⟨_, rfl, ?_, s.setReg_changes_only x _⟩⟩
  · exact s.reg_setReg_same x nn
  · rw [State.reg_setReg_same, BitVec.toNat_add]
  · exact s.reg_setReg_same x (s.reg y)

/-- Settles O36: each is one register write, so VF keeps its value unless it is V[x]. -/
theorem logicLeavesVfAlone : Obligations.LogicLeavesVfAlone := by
  refine fun x y s => ⟨⟨_, rfl, fun k => ?_, s.setReg_changes_only x _⟩,
    ⟨_, rfl, fun k => ?_, s.setReg_changes_only x _⟩, ⟨_, rfl, fun k => ?_, s.setReg_changes_only x _⟩⟩
  · rw [State.reg_setReg_same, BitVec.getLsbD_or]
  · rw [State.reg_setReg_same, BitVec.getLsbD_and]
  · rw [State.reg_setReg_same, BitVec.getLsbD_xor]

/-- Settles O39: the byte asked for is masked before the one write. -/
theorem rndIsMasked : Obligations.RndIsMasked := by
  intro x nn s
  obtain ⟨hreg, -⟩ := s.rand8.2.setReg_changes_only x (s.rand8.1 &&& nn)
  refine ⟨_, rfl, s.rand8.2.reg_setReg_same x _, ?_, rfl, hreg, rfl⟩
  rw [State.reg_setReg_same, BitVec.and_assoc, BitVec.and_not_self]
  exact BitVec.and_zero

end Sys2Proof.Machine
end

section
/-! PROOFS of the family 42_index_memory.md: what a move of several bytes leaves in memory and in the registers, whether
or not it reaches above 0xFFF, and arithmetic on I. -/

namespace Sys2Proof.Machine

/-! ### The frame of memory (R160, R164, R165) -/

theorem Writes.byteAt {i : Instr} {s t : State} {a : Nat} (h : Writes i s t)
    (ha : a < s.base ∨ s.base + i.storedBytes ≤ a) : t.byteAt a = s.byteAt a := by
  induction h with
  | nothing | call | ret => rfl
  | store hlo hhi _ _ ih => exact (Memory.get_set_other _ _ (by omega)).trans ih
  | _ => assumption

/-- Settles O23, by induction over the writes an instruction may make. -/
theorem memoryOutsideTheStoredBytesIsUnchanged : Obligations.MemoryOutsideTheStoredBytesIsUnchanged :=
  fun _ _ _ _ h ha => (exec_writes h).byteAt ha

/-! ### Several bytes stored (R65, R209) -/

section
variable {s : State} {a : Nat} {bs : List Byte}

/-- Whether or not it faults, a store of several bytes leaves those at or below 0xFFF in memory. -/
theorem State.mem_storeBytes : (s.storeBytes a bs).mem = s.mem.setBytes a (bs.take (Config.memTop + 1 - a)) := by
  rcases Nat.lt_or_ge (Config.memTop + 1) (a + bs.length) with hover | hfits
  · rcases eq_or_ne bs [] with rfl | hne
    · rw [List.take_nil]
      rfl
    · rw [State.storeBytes_of_over hover hne, State.raise_mem]
  · rw [State.storeBytes_of_fits hfits, List.take_of_length_le (by omega)]

/-- Byte `k` of those stored, when its address is in range. -/
theorem State.byteAt_storeBytes {k : Nat} (hk : k < bs.length) (hin : a + k ≤ Config.memTop) :
    (s.storeBytes a bs).byteAt (a + k) = bs.getD k 0 := by
  have hrange : a ≤ a + k ∧ a + k < a + (bs.take (Config.memTop + 1 - a)).length := by
    rw [List.length_take]
    omega
  rw [State.byteAt, State.mem_storeBytes, Memory.get_setBytes, if_pos hrange, Nat.add_sub_cancel_left,
    List.getD_eq_getElem?_getD, List.getElem?_take_of_lt (by omega), ← List.getD_eq_getElem?_getD]

theorem State.byteAt_storeBytes_outside {c : Nat} (hc : c < a ∨ a + bs.length ≤ c ∨ Config.memTop < c) :
    (s.storeBytes a bs).byteAt c = s.byteAt c := by
  have hrange : ¬ (a ≤ c ∧ c < a + (bs.take (Config.memTop + 1 - a)).length) := by
    rw [List.length_take]
    omega
  rw [State.byteAt, State.mem_storeBytes, Memory.get_setBytes, if_neg hrange, State.byteAt]

theorem State.storeBytes_frame_of_fits (h : a + bs.length ≤ Config.memTop + 1) :
    { s.storeBytes a bs with mem := s.mem } = s := by
  rw [State.storeBytes_of_fits h]

theorem State.storeBytes_frame_of_over (h : Config.memTop + 1 < a + bs.length) (hne : bs ≠ []) :
    { s.storeBytes a bs with mem := s.mem } = s.raise .addressOutOfRange := by
  rw [State.storeBytes_of_over h hne]
  rfl

end

/-! ### Several registers loaded (R65, R209) -/

theorem State.loadedRegs_reg_range (s : State) (a : Nat) {n : Nat} (hn : n ≤ 16) (r : Reg) :
    (s.loadedRegs a ((List.range n).map (BitVec.ofNat 4))).reg r =
      if r.toNat < n then s.byteAt (a + r.toNat) else s.reg r := by
  have hval : ∀ k ∈ List.range n, (BitVec.ofNat 4 k).toNat = k := fun k hk =>
    Nat.mod_eq_of_lt (Nat.lt_of_lt_of_le (List.mem_range.mp hk) hn)
  split
  · next hr =>
    have hnodup : ((List.range n).map (BitVec.ofNat 4)).Nodup :=
      List.Nodup.map_on (fun j hj k hk he => by rw [← hval j hj, he, hval k hk]) List.nodup_range
    have hlen : r.toNat < ((List.range n).map (BitVec.ofNat 4)).length := by simpa using hr
    have hget : ((List.range n).map (BitVec.ofNat 4))[r.toNat] = r := by simp
    rw [← s.loadedRegs_reg_get a hnodup r.toNat hlen, hget]
  · next hr =>
    refine s.loadedRegs_reg_of_not_mem a fun hmem => hr ?_
    obtain ⟨k, hk, rfl⟩ := List.mem_map.mp hmem
    rw [hval k hk]
    exact List.mem_range.mp hk

section
variable {s : State} {a : Nat} {x : Reg}

/-- Whether or not it faults, a load of V0 to V[x] writes the registers whose byte is at or below 0xFFF. -/
theorem State.reg_loadBytes_regsUpTo (r : Reg) :
    (s.loadBytes a (regsUpTo x)).reg r =
      if r.toNat ≤ x.toNat ∧ a + r.toNat ≤ Config.memTop then s.byteAt (a + r.toNat) else s.reg r := by
  have hx := x.isLt
  rcases Nat.lt_or_ge (Config.memTop + 1) (a + (regsUpTo x).length) with hover | hfits
  · rw [State.loadBytes_of_over hover (by simp [regsUpTo]), State.raise_reg, regsUpTo, ← List.map_take,
      List.take_range, State.loadedRegs_reg_range s a (by omega)]
    exact if_congr (by omega) rfl rfl
  · rw [State.loadBytes_of_fits hfits, regsUpTo, State.loadedRegs_reg_range s a hx]
    rw [length_regsUpTo] at hfits
    exact if_congr (by omega) rfl rfl

theorem State.loadBytes_frame_of_fits {rs : List Reg} (h : a + rs.length ≤ Config.memTop + 1) :
    { s.loadBytes a rs with v := s.v } = s := by
  rw [State.loadBytes_of_fits h]
  exact s.loadedRegs_frame a rs

theorem State.loadBytes_frame_of_over {rs : List Reg} (h : Config.memTop + 1 < a + rs.length) (hne : rs ≠ []) :
    { s.loadBytes a rs with v := s.v } = s.raise .addressOutOfRange := by
  rw [State.loadBytes_of_over h hne]
  exact congrArg (·.raise .addressOutOfRange) (s.loadedRegs_frame a _)

end

/-! ### LD B (R164) -/

/-- Settles O42: each digit is below 256, so its byte has its value. -/
theorem ldBStoresTheDigits : Obligations.LdBStoresTheDigits := by
  intro x s hfits
  have hb := (s.reg x).isLt
  have htop : Config.memTop = 0xFFF := rfl
  have hlen : (bcdDigits (s.reg x)).length = 3 := length_bcdDigits _
  have hdigit : ∀ k < 3, (s.storeBytes s.base (bcdDigits (s.reg x))).byteAt (s.base + k) =
      (bcdDigits (s.reg x)).getD k 0 := fun k hk => State.byteAt_storeBytes (by omega) (by omega)
  refine ⟨_, rfl, ?_, ?_, ?_, fun a ha => State.byteAt_storeBytes_outside (by omega),
    State.storeBytes_frame_of_fits (by omega)⟩
  · exact (congrArg BitVec.toNat (hdigit 0 (by decide))).trans (Nat.mod_eq_of_lt (by omega))
  · exact (congrArg BitVec.toNat (hdigit 1 (by decide))).trans (Nat.mod_eq_of_lt (by omega))
  · exact (congrArg BitVec.toNat (hdigit 2 (by decide))).trans (Nat.mod_eq_of_lt (by omega))

/-! ### The register store and load (R165, R166) -/

theorem length_map_reg_regsUpTo (s : State) (x : Reg) : ((regsUpTo x).map s.reg).length = x.toNat + 1 := by
  rw [List.length_map, length_regsUpTo]

/-- V[r] of V0 to V[x] stored, when its address is in range. -/
theorem State.byteAt_storeBytes_regsUpTo {s : State} {a : Nat} {x r : Reg} (hr : r.toNat ≤ x.toNat)
    (hin : a + r.toNat ≤ Config.memTop) :
    (s.storeBytes a ((regsUpTo x).map s.reg)).byteAt (a + r.toNat) = s.reg r := by
  rw [State.byteAt_storeBytes (by rw [length_map_reg_regsUpTo]; omega) hin, getD_map_reg_regsUpTo s hr]

/-- Settles O43: V[r] is byte r of those stored. -/
theorem registerStore : Obligations.RegisterStore := by
  intro x s hfits
  have htop : Config.memTop = 0xFFF := rfl
  have hlen := length_map_reg_regsUpTo s x
  exact ⟨_, rfl, fun r hr => State.byteAt_storeBytes_regsUpTo hr (by omega),
    fun a ha => State.byteAt_storeBytes_outside (by omega), State.storeBytes_frame_of_fits (by omega)⟩

/-- Settles O44: every register up to V[x] has its byte in range. -/
theorem registerLoad : Obligations.RegisterLoad := by
  intro x s hfits
  have htop : Config.memTop = 0xFFF := rfl
  have hlen := length_regsUpTo x
  exact ⟨_, rfl, fun r hr => (State.reg_loadBytes_regsUpTo r).trans (if_pos (by omega)),
    fun r hr => (State.reg_loadBytes_regsUpTo r).trans (if_neg (by omega)),
    State.loadBytes_frame_of_fits (by omega)⟩

/-- Settles O45: each move does the bytes at or below 0xFFF and raises the fault at the first one above. -/
theorem outOfRangeMovesStopPartWay : Obligations.OutOfRangeMovesStopPartWay := by
  intro x s
  have htop : Config.memTop = 0xFFF := rfl
  have hdigits : (bcdDigits (s.reg x)).length = 3 := length_bcdDigits _
  have hregs := length_map_reg_regsUpTo s x
  have hlen := length_regsUpTo x
  refine ⟨fun hover => ⟨_, rfl, fun k hin hk => ?_, fun a ha => ?_, ?_⟩,
    fun hover => ⟨_, rfl, fun r hin => ?_, fun a ha => ?_, ?_⟩,
    fun hover => ⟨_, rfl, fun r hin => ?_, fun r hr => ?_, ?_⟩⟩
  · exact State.byteAt_storeBytes (by omega) hin
  · exact State.byteAt_storeBytes_outside (by omega)
  · exact State.storeBytes_frame_of_over (by omega) (List.cons_ne_nil _ _)
  · exact State.byteAt_storeBytes_regsUpTo (by omega) hin
  · exact State.byteAt_storeBytes_outside (by omega)
  · exact State.storeBytes_frame_of_over (by omega) (List.ne_nil_of_length_eq_add_one hregs)
  · exact (State.reg_loadBytes_regsUpTo r).trans (if_pos (by omega))
  · exact (State.reg_loadBytes_regsUpTo r).trans (if_neg (by omega))
  · exact State.loadBytes_frame_of_over (by omega) (List.ne_nil_of_length_eq_add_one hlen)

/-! ### Arithmetic on I (R161 to R163) -/

/-- Settles O40: the widened NNN keeps its value. -/
theorem ldISetsI : Obligations.LdISetsI := fun nnn _ => ⟨_, rfl, toNat_addrOperand nnn, rfl⟩

theorem toNat_byteOperand (b : Byte) : (byteOperand b).toNat = b.toNat := BitVec.toNat_setWidth_of_le (by decide)

/-- A glyph's address is at most 0x050 + 75, so it does not wrap (R66). -/
theorem toNat_glyphAddr (d : Fin 16) : (glyphAddr d).toNat = 0x050 + 5 * d.val :=
  Nat.mod_eq_of_lt (by have := d.isLt; have : Config.fontBase = 0x050 := rfl; omega)

/-- Settles O41: the widened byte keeps its value, and the glyph is that of the low four bits. -/
theorem indexArithmetic : Obligations.IndexArithmetic := by
  refine fun x s => ⟨⟨_, rfl, ?_, rfl⟩, ⟨_, rfl, ?_, rfl⟩⟩
  · rw [BitVec.toNat_add, toNat_byteOperand]
  · rw [toNat_glyphAddr, val_lowNibble]

end Sys2Proof.Machine
end

section
/-! PROOFS of the family 43_display.md: the tracker DIRTY and the flag DRAWP never steer a program, and what toggles, CLS
and DRW leave. -/

namespace Sys2Proof.Machine

/-! ### Machines that differ in DIRTY and DRAWP alone (R183) -/

/-- The state with its dirty tracker and its draw-pending flag replaced. -/
def State.withTrackers (s : State) (d : Grid Config.rows Config.buckets) (p : Bool) : State :=
  { s with dirty := d, drawp := p }

theorem sameButTrackers_iff {s s' : State} : SameButTrackers s s' ↔ ∃ d p, s' = s.withTrackers d p := by
  constructor
  · intro he
    exact ⟨s'.dirty, s'.drawp, by rw [← he]; rfl⟩
  · rintro ⟨d, p, rfl⟩
    rfl

section
variable {s s' : State} (h : SameButTrackers s s')
include h

theorem SameButTrackers.memRead (a : Nat) : s'.memRead a = s.memRead a := by
  obtain ⟨d, p, rfl⟩ := sameButTrackers_iff.mp h
  rfl

theorem SameButTrackers.fetch : s'.fetch = s.fetch := by
  obtain ⟨d, p, rfl⟩ := sameButTrackers_iff.mp h
  rfl

theorem SameButTrackers.ms : s'.ms = s.ms := by
  obtain ⟨d, p, rfl⟩ := sameButTrackers_iff.mp h
  rfl

theorem SameButTrackers.raise (f : FaultReason) : SameButTrackers (s.raise f) (s'.raise f) := by
  obtain ⟨d, p, rfl⟩ := sameButTrackers_iff.mp h
  rfl

theorem SameButTrackers.advancePc : SameButTrackers s.advancePc s'.advancePc := by
  obtain ⟨d, p, rfl⟩ := sameButTrackers_iff.mp h
  rfl

theorem SameButTrackers.skipIf (c : Bool) : SameButTrackers (s.skipIf c) (s'.skipIf c) := by
  cases c with
  | false => exact h
  | true => exact h.advancePc

theorem SameButTrackers.setReg (r : Reg) (b : Byte) : SameButTrackers (s.setReg r b) (s'.setReg r b) := by
  obtain ⟨d, p, rfl⟩ := sameButTrackers_iff.mp h
  rfl

theorem SameButTrackers.setMem (a : Nat) (b : Byte) :
    SameButTrackers { s with mem := s.mem.set a b } { s' with mem := s'.mem.set a b } := by
  obtain ⟨d, p, rfl⟩ := sameButTrackers_iff.mp h
  rfl

theorem SameButTrackers.beginDraw : SameButTrackers s.beginDraw s'.beginDraw := by
  obtain ⟨d, p, rfl⟩ := sameButTrackers_iff.mp h
  rfl

theorem SameButTrackers.endStep : SameButTrackers s.endStep s'.endStep := by
  obtain ⟨d, p, rfl⟩ := sameButTrackers_iff.mp h
  show SameButTrackers _ (if s.ms = .running then _ else _)
  unfold State.endStep
  split <;> rfl

/-- A toggle reads FB alone; what it writes to DIRTY is of no account here (R180). -/
theorem SameButTrackers.toggleOne (q : Nat × Nat) : SameButTrackers (s.toggleOne q) (s'.toggleOne q) := by
  obtain ⟨d, p, rfl⟩ := sameButTrackers_iff.mp h
  show SameButTrackers _ (if (s.togglePixel q.1 q.2).1 then _ else _)
  dsimp only [State.toggleOne]
  split <;> rfl

end

theorem SameButTrackers.storeBytes {s s' : State} (h : SameButTrackers s s') (a : Nat) (bs : List Byte) :
    SameButTrackers (s.storeBytes a bs) (s'.storeBytes a bs) := by
  induction bs generalizing s s' a with
  | nil => exact h
  | cons b bs ih =>
    rcases Nat.lt_or_ge Config.memTop a with ha | ha
    · rw [State.storeBytes, State.storeBytes, State.memWrite_of_gt _ b ha, State.memWrite_of_gt _ b ha]
      exact h.raise _
    · rw [State.storeBytes, State.storeBytes, State.memWrite_of_le _ b ha, State.memWrite_of_le _ b ha]
      exact ih (h.setMem a b) (a + 1)

theorem SameButTrackers.loadBytes {s s' : State} (h : SameButTrackers s s') (a : Nat) (rs : List Reg) :
    SameButTrackers (s.loadBytes a rs) (s'.loadBytes a rs) := by
  induction rs generalizing s s' a with
  | nil => exact h
  | cons r rs ih =>
    rw [State.loadBytes, State.loadBytes, h.memRead a]
    cases s.memRead a with
    | error f => exact h.raise f
    | ok b => exact ih (h.setReg r b) (a + 1)

theorem SameButTrackers.toggleAll {s s' : State} (h : SameButTrackers s s') (ps : List (Nat × Nat)) :
    SameButTrackers (s.toggleAll ps) (s'.toggleAll ps) := by
  induction ps generalizing s s' with
  | nil => exact h
  | cons p ps ih => exact ih (h.toggleOne p)

theorem SameButTrackers.drawRows {s s' : State} (h : SameButTrackers s s') (x0 y0 base : Nat) (rs : List Nat) :
    SameButTrackers (s.drawRows x0 y0 base rs) (s'.drawRows x0 y0 base rs) := by
  induction rs generalizing s s' with
  | nil => exact h
  | cons r rs ih =>
    rw [State.drawRows, State.drawRows, h.memRead (base + r)]
    cases s.memRead (base + r) with
    | error f => exact h.raise f
    | ok b =>
      dsimp only
      rw [State.drawColumns_eq_toggleAll, State.drawColumns_eq_toggleAll]
      exact ih (h.toggleAll _)

/-- An instruction whose case has no lemma of its own above makes one write, from elements that both machines share. -/
theorem exec_sameButTrackers {i : Instr} {s s' t : State} (hs : SameButTrackers s s') (h : exec i s = .next t) :
    ∃ t', exec i s' = .next t' ∧ SameButTrackers t t' := by
  obtain ⟨d, p, rfl⟩ := sameButTrackers_iff.mp hs
  cases i with
  | ret =>
    rcases Nat.eq_zero_or_pos s.sp.val with hsp | hsp
    · rw [exec_ret_of_empty hsp] at h
      cases h
      exact ⟨_, exec_ret_of_empty (s := s.withTrackers d p) hsp, rfl⟩
    · rw [exec_ret_of_some hsp] at h
      cases h
      exact ⟨_, exec_ret_of_some (s := s.withTrackers d p) hsp, rfl⟩
  | call nnn =>
    rcases Nat.lt_or_ge s.sp.val Config.stackDepth with hsp | hsp
    · rw [exec_call_of_room nnn hsp] at h
      cases h
      exact ⟨_, exec_call_of_room (s := s.withTrackers d p) nnn hsp, rfl⟩
    · have hfull : s.sp.val = Config.stackDepth := by omega
      rw [exec_call_of_full nnn hfull] at h
      cases h
      exact ⟨_, exec_call_of_full (s := s.withTrackers d p) nnn hfull, rfl⟩
  | ldVxK x =>
    cases hk : s.leastKeyDown with
    | none =>
      rw [exec_ldVxK_of_none x hk] at h
      cases h
      exact ⟨_, exec_ldVxK_of_none (s := s.withTrackers d p) x hk, rfl⟩
    | some k =>
      rw [exec_ldVxK_of_some x hk] at h
      cases h
      exact ⟨_, exec_ldVxK_of_some (s := s.withTrackers d p) x hk, rfl⟩
  | seImm _ _ | sneImm _ _ | seReg _ _ | sneReg _ _ | skp _ | sknp _ =>
    cases h
    exact ⟨_, rfl, hs.skipIf _⟩
  | ldBVx _ | storeRegs _ =>
    cases h
    exact ⟨_, rfl, hs.storeBytes _ _⟩
  | loadRegs _ =>
    cases h
    exact ⟨_, rfl, hs.loadBytes _ _⟩
  | drw _ _ _ =>
    cases h
    exact ⟨_, rfl, hs.beginDraw.drawRows _ _ _ _⟩
  | _ =>
    cases h
    exact ⟨_, rfl, rfl⟩

theorem step_sameButTrackers {s s' t : State} (hs : SameButTrackers s s') (h : step s = .next t) :
    ∃ t', step s' = .next t' ∧ SameButTrackers t t' := by
  rcases step_cases s with ⟨hr, he⟩ | ⟨hr, hp, he⟩ | ⟨w, e, hr, hf, hd, he⟩ | ⟨w, i, hr, hf, hd, he⟩ <;> rw [he] at h
  · cases h
    exact ⟨_, step_of_not_running (hs.ms ▸ hr), hs⟩
  · cases h
    have hf : s.fetch = .error .addressOutOfRange := State.fetch_of_gt (Nat.lt_of_succ_lt_succ hp)
    exact ⟨_, step_of_fetch_error (hs.ms.trans hr) (hs.fetch.trans hf), hs.raise _⟩
  · cases h
    exact ⟨_, step_of_illegal (hs.ms.trans hr) (hs.fetch.trans hf) hd, hs.advancePc.raise _⟩
  · obtain ⟨u, hu, -⟩ := exec_next_writes i s.advancePc
    obtain ⟨u', hu', hsame⟩ := exec_sameButTrackers hs.advancePc hu
    rw [hu] at h
    cases h
    exact ⟨_, by rw [step_of_decoded (hs.ms.trans hr) (hs.fetch.trans hf) hd, hu']; rfl, hsame.endStep⟩

/-- Settles O25: the second machine has a step that leaves it differing in DIRTY and DRAWP alone, and a machine has but
one step. -/
theorem trackersNeverSteerTheProgram : Obligations.TrackersNeverSteerTheProgram := by
  intro s s' t t' hs h h'
  obtain ⟨u, hu, hsame⟩ := step_sameButTrackers hs h
  rw [hu] at h'
  cases h'
  exact hsame

/-! ### One pixel and the whole display (R180, R181) -/

/-- Settles O46: a toggle sets one cell of FB and one cell of DIRTY. -/
theorem setPixelToggleFlipsOnePixel : Obligations.SetPixelToggleFlipsOnePixel := by
  intro s px py y x b hy hx hb
  obtain rfl : y = row py := Fin.ext hy
  obtain rfl : x = column px := Fin.ext hx
  obtain rfl : b = bucketOf (column px) := Fin.ext hb
  refine ⟨s.togglePixel_fst px py, ?_, fun y' x' hne => ?_, ?_, fun y' b' hne => ?_, rfl⟩
  · rw [State.pixel_togglePixel, if_pos ⟨rfl, rfl⟩]
  · rw [State.pixel_togglePixel, if_neg (not_and_or.mpr hne)]
  · rw [State.isDirty_togglePixel, if_pos ⟨rfl, rfl⟩]
  · rw [State.isDirty_togglePixel, if_neg (not_and_or.mpr hne)]

/-- Settles O47: CLS fills FB and DIRTY. -/
theorem clsClearsTheDisplay : Obligations.ClsClearsTheDisplay :=
  fun _ => ⟨_, rfl, fun y x => Grid.get_fill y x false, fun y b => Grid.get_fill y b true, rfl, rfl⟩

/-! ### A sprite drawn whole (R182) -/

section
variable (s : State) (x0 y0 base : Nat) {n : Nat} (hn : n ≤ 15)
include hn

theorem State.drawnRows_pixel (y : Fin Config.rows) (x : Fin Config.columns) :
    (s.drawnRows (x0 % 64) (y0 % 32) base (List.range n)).pixel y x =
      (s.pixel y x ^^ spriteCovers s x0 y0 base n y x) := by
  rw [State.drawnRows_eq_toggleAll, State.toggleAll_pixel _ _ _ _ (s.nodup_spriteToggles _ _ _ _ hn)]
  simp only [s.mem_spriteToggles x0 y0 base n hn, Bool.decide_eq_true]

theorem State.drawnRows_isDirty (y : Fin Config.rows) (b : Fin Config.buckets) :
    (s.drawnRows (x0 % 64) (y0 % 32) base (List.range n)).isDirty y b = true ↔
      s.isDirty y b = true ∨ ∃ x, bucketOf x = b ∧ spriteCovers s x0 y0 base n y x = true := by
  rw [State.drawnRows_eq_toggleAll, State.toggleAll_isDirty]
  simp only [s.mem_spriteToggles x0 y0 base n hn]

theorem State.drawnRows_vf :
    (s.drawnRows (x0 % 64) (y0 % 32) base (List.range n)).reg vf =
      if ∃ y x, s.pixel y x = true ∧ spriteCovers s x0 y0 base n y x = true then 1 else s.reg vf := by
  rw [State.drawnRows_eq_toggleAll, State.toggleAll_vf _ _ (s.nodup_spriteToggles _ _ _ _ hn)]
  simp only [s.mem_spriteToggles x0 y0 base n hn]

end

/-- Settles O48: DRW clears VF and sets DRAWP before it draws its rows, and reads the same sprite as before. -/
theorem drwDrawsTheSprite : Obligations.DrwDrawsTheSprite := by
  intro x y n s hfits
  have hn : n.toNat ≤ 15 := Nat.le_of_lt_succ n.isLt
  have hvf := s.beginDraw.drawnRows_vf (s.reg x).toNat (s.reg y).toNat s.base hn
  have hvf0 : s.beginDraw.reg vf = 0 := s.reg_setReg_same vf 0
  have hframe := s.beginDraw.drawnRows_frame ((s.reg x).toNat % 64) ((s.reg y).toNat % 32) s.base (List.range n.toNat)
  rw [hvf0] at hvf
  refine ⟨_, exec_drw_of_fits x y n hfits, s.beginDraw.drawnRows_pixel _ _ _ hn, s.beginDraw.drawnRows_isDirty _ _ _ hn,
    ?_, ?_, congrArg State.drawp hframe, fun r hr => ?_,
    congrArg (fun t : State => { t with v := s.v, drawp := s.drawp }) hframe⟩
  · rw [hvf]
    split
    · exact .inr rfl
    · exact .inl rfl
  · rw [hvf]
    split
    · next hset => exact iff_of_true rfl hset
    · next hset => exact iff_of_false (by decide) hset
  · rw [State.drawnRows_reg _ _ _ _ _ hr]
    exact s.reg_setReg_other 0 hr

/-- Settles O49: both draw the same m rows. -/
theorem drwStopsAtTheFirstRowOutOfRange : Obligations.DrwStopsAtTheFirstRowOutOfRange :=
  fun x y m n _ hmn hfits hover => ⟨_, exec_drw_of_fits x y m hfits, exec_drw_of_over x y n hmn hfits hover⟩

/-! ### Changed pixels are tracked (R183) -/

/-- The changed pixels of `t` against `s` lie in dirty buckets with DRAWP true, and no flag of `s` is cleared. -/
structure TracksChanges (s t : State) : Prop where
  changed : ∀ y x, t.pixel y x ≠ s.pixel y x → t.isDirty y (bucketOf x) = true ∧ t.drawp = true
  dirty : ∀ y b, s.isDirty y b = true → t.isDirty y b = true
  drawp : s.drawp = true → t.drawp = true

theorem TracksChanges.of_sameDisplay {s t : State} (h : SameDisplay s t) : TracksChanges s t := by
  obtain ⟨hfb, hdirty, hdrawp⟩ := h
  exact {
    changed := fun y x hne => absurd (congrArg (Grid.get · y x) hfb) hne
    dirty := fun y b hb => (congrArg (Grid.get · y b) hdirty).trans hb
    drawp := hdrawp.trans }

theorem TracksChanges.exec_cls {s t : State} (h : exec .cls s = .next t) : TracksChanges s t := by
  obtain ⟨u, hu, -, hdirty, hdrawp, -⟩ := clsClearsTheDisplay s
  rw [hu] at h
  cases h
  exact ⟨fun y x _ => ⟨hdirty y _, hdrawp⟩, fun y b _ => hdirty y b, fun _ => hdrawp⟩

/-- A pixel that DRW changes is one that its sprite covers, whose bucket it marks. -/
theorem TracksChanges.exec_drw_of_fits {x y : Reg} {n : Nibble} {s t : State}
    (hfits : ∀ r, r < n.toNat → s.base + r ≤ 0xFFF) (h : exec (.drw x y n) s = .next t) : TracksChanges s t := by
  obtain ⟨u, hu, hpixel, hdirty, -, -, hdrawp, -⟩ := drwDrawsTheSprite x y n s hfits
  rw [hu] at h
  cases h
  refine ⟨fun py px hne => ⟨(hdirty py _).mpr (.inr ⟨px, rfl, ?_⟩), hdrawp⟩, fun py b hb => (hdirty py b).mpr (.inl hb),
    fun _ => hdrawp⟩
  rw [hpixel] at hne
  by_contra hcovers
  rw [Bool.not_eq_true] at hcovers
  rw [hcovers, Bool.xor_false] at hne
  exact hne rfl

/-- The first row out of range is the one at 0x1000, or row 0 when the base is above it (D17). -/
theorem rows_in_range_or_first_out (base : Nat) (n : Nibble) :
    (∀ r, r < n.toNat → base + r ≤ 0xFFF) ∨
      ∃ m : Nibble, m.toNat < n.toNat ∧ (∀ r, r < m.toNat → base + r ≤ 0xFFF) ∧ 0xFFF < base + m.toNat := by
  rcases Nat.lt_or_ge (0x1000 - base) n.toNat with hlt | hge
  · have hm : (BitVec.ofNat 4 (0x1000 - base)).toNat = 0x1000 - base := Nat.mod_eq_of_lt (hlt.trans n.isLt)
    exact .inr ⟨_, hm ▸ hlt, fun r hr => by omega, by omega⟩
  · exact .inl fun r hr => by omega

/-- The rows DRW draws before a fault are those of a shorter DRW. -/
theorem TracksChanges.exec_drw {x y : Reg} {n : Nibble} {s t : State} (h : exec (.drw x y n) s = .next t) :
    TracksChanges s t := by
  rcases rows_in_range_or_first_out s.base n with hfits | ⟨m, hmn, hfits, hover⟩
  · exact .exec_drw_of_fits hfits h
  · obtain ⟨u, hu, hfault⟩ := drwStopsAtTheFirstRowOutOfRange x y m n s hmn hfits hover
    rw [hfault] at h
    cases h
    exact { TracksChanges.exec_drw_of_fits hfits hu with }

/-- Settles O24: every instruction but CLS and DRW leaves the display alone. -/
theorem changedPixelsAreDirtyAndDrawPending : Obligations.ChangedPixelsAreDirtyAndDrawPending := by
  intro i s t h
  suffices htracks : TracksChanges s t from ⟨htracks.changed, htracks.dirty, htracks.drawp⟩
  by_cases hc : i = .cls
  · subst hc
    exact .exec_cls h
  by_cases hd : ∃ x y n, i = .drw x y n
  · obtain ⟨x, y, n, rfl⟩ := hd
    exact .exec_drw h
  · exact .of_sameDisplay ((exec_writes h).sameDisplay hc fun x y n he => hd ⟨x, y, n, he⟩)

end Sys2Proof.Machine
end

section
/-! PROOFS of the family 44_timers_sound.md: the moves between a register and a timer, and what the host hears of ST. -/

namespace Sys2Proof.Machine

/-! ### The timer moves and the sound output (R190 to R192) -/

theorem State.soundActive_iff (s : State) : s.soundActive = true ↔ s.st ≠ 0 := bne_iff_ne

/-- Settles O50: LD Vx, DT is one register write, and the other two moves each set one timer. -/
theorem timerInstructions : Obligations.TimerInstructions := by
  refine fun x s => ⟨⟨_, rfl, ?_, s.setReg_changes_only x _⟩, rfl, ⟨_, rfl, rfl, ?_, rfl⟩⟩
  · exact s.reg_setReg_same x s.dt
  · exact State.soundActive_iff _

end Sys2Proof.Machine
end

section
/-! PROOFS of the family 45_input.md: the keypad wait with no key down, and with a least key down. -/

namespace Sys2Proof.Machine

/-! ### The keypad wait (R195) -/

/-- A machine has at most one least pressed key, so the one that the search finds is it. -/
theorem State.leastKeyDown_eq_some {s : State} {k : Fin Config.keys} (hdown : s.keyDown k = true)
    (hleast : ∀ j, j < k → s.keyDown j = false) : s.leastKeyDown = some k := by
  cases hfound : s.leastKeyDown with
  | none => exact absurd hdown (Bool.eq_false_iff.mp (State.leastKeyDown_none.mp hfound k))
  | some m =>
    obtain ⟨hm, hbelow⟩ := State.leastKeyDown_some hfound
    have hkm : k ≤ m := le_of_not_gt fun hlt => Bool.eq_false_iff.mp (hleast m hlt) hm
    have hmk : m ≤ k := le_of_not_gt fun hlt => Bool.eq_false_iff.mp (hbelow k hlt) hdown
    rw [le_antisymm hmk hkm]

/-- A key's number fits in a register. -/
theorem toNat_keyNumber (k : Fin Config.keys) : (BitVec.ofNat 8 k.val).toNat = k.val :=
  Nat.mod_eq_of_lt (k.isLt.trans (by decide))

/-- Settles O51: with a key down the wait is one register write. -/
theorem waitForKey : Obligations.WaitForKey := by
  refine fun x s => ⟨fun hnone => exec_ldVxK_of_none x (State.leastKeyDown_none.mpr hnone), fun k hdown hleast =>
    ⟨_, exec_ldVxK_of_some x (State.leastKeyDown_eq_some hdown hleast), ?_, s.setReg_changes_only x _⟩⟩
  rw [State.reg_setReg_same]
  exact toNat_keyNumber k

end Sys2Proof.Machine
end

section
/-! PROOFS of the family 60_exceptions.md, the controller and the host: what a host operation can do, said once, and the
invariant, the lifecycle and the program area that follow. -/

namespace Sys2Proof.Machine

/-! ### Each operation, case by case (R212 to R214, R218) -/

/-- The state a successful load_program leaves. -/
def State.withProgram (s : State) (rom : List Byte) : State :=
  { s with
    mem := s.mem.setBytes Config.programBase rom
    romlen := rom.length
    loaded := true
    ms := if s.ms = .faulted then .faulted else .loaded }

section
variable {s : State} {rom : List Byte}

theorem State.loadProgram_of_running (h : s.ms = .running) : s.loadProgram rom = (.error .alreadyRunning, s) := if_pos h

theorem State.loadProgram_of_tooLarge (h : s.ms ≠ .running) (hlen : Config.maxProgram < rom.length) :
    s.loadProgram rom = (.error .romTooLarge, s) := (if_neg h).trans (if_pos hlen)

theorem State.loadProgram_of_fits (h : s.ms ≠ .running) (hlen : rom.length ≤ Config.maxProgram) :
    s.loadProgram rom = (.done, s.withProgram rom) := (if_neg h).trans (if_neg (Nat.not_lt_of_le hlen))

theorem State.start_of_notLoaded (h : s.loaded = false) : s.start = (.error .notLoaded, s) := if_pos h

theorem State.start_of_running (hl : s.loaded = true) (h : s.ms = .running) :
    s.start = (.error .alreadyRunning, s) := (if_neg (by simp [hl])).trans (if_pos h)

theorem State.start_of_ready (hl : s.loaded = true) (h : s.ms ≠ .running) :
    s.start = (.done, { s.resetSequence with fr := .noFault, ms := .running }) :=
  (if_neg (by simp [hl])).trans (if_neg h)

theorem State.withProgram_ms_ne_running : (s.withProgram rom).ms ≠ .running := by
  show (if s.ms = .faulted then Lifecycle.faulted else .loaded) ≠ .running
  split <;> decide

theorem State.byteAt_withProgram {k : Nat} (hk : k < rom.length) :
    (s.withProgram rom).byteAt (Config.programBase + k) = rom[k] := by
  have hin : Config.programBase ≤ Config.programBase + k ∧ Config.programBase + k < Config.programBase + rom.length := by
    omega
  show (s.mem.setBytes Config.programBase rom).get _ = _
  rw [Memory.get_setBytes, if_pos hin, Nat.add_sub_cancel_left, List.getD_eq_getElem _ _ hk]

theorem State.stop_of_loaded (hu : s.ms ≠ .uninitialized) (hf : s.ms ≠ .faulted) :
    s.stop = (.done, { s with ms := .stopped }) := by
  cases h : s.ms with
  | uninitialized => exact absurd h hu
  | faulted => exact absurd h hf
  | loaded | running | stopped => simp only [State.stop, h]

theorem State.stop_of_idle (h : s.ms = .uninitialized ∨ s.ms = .faulted) : s.stop = (.done, s) := by
  rcases h with h | h <;> simp only [State.stop, h]

theorem State.setKeyState_of_lt {k : Nat} (p : Bool) (hk : k < Config.keys) :
    s.setKeyState k p = (.done, { s with key := s.key.set k p hk }) := dif_pos hk

theorem State.setKeyState_of_ge {k : Nat} (p : Bool) (hk : Config.keys ≤ k) :
    s.setKeyState k p = (.error .invalidKey, s) := dif_neg (Nat.not_lt_of_le hk)

theorem State.isKeyPressed_of_lt {k : Nat} (hk : k < Config.keys) : s.isKeyPressed k = .flag (s.keyDown ⟨k, hk⟩) :=
  dif_pos hk

theorem State.isKeyPressed_of_ge {k : Nat} (hk : Config.keys ≤ k) : s.isKeyPressed k = .error .invalidKey :=
  dif_neg (Nat.not_lt_of_le hk)

end

/-! ### What a host operation can do (R210 to R219) -/

/-- `HostWrites s op r t`: operation `op` on `s` may answer `r` and leave `t`. Each constructor is one change of state; an
operation that is refused or only asks leaves the state as it is. -/
inductive HostWrites (s : State) : HostOp → HostReply → State → Prop
  | nothing {op : HostOp} {r : HostReply} : HostWrites s op r s
  | step {t : State} (h : step s = .next t) : HostWrites s .step .done t
  | loadProgram {rom : List Byte} (hr : s.ms ≠ .running) (hlen : rom.length ≤ Config.maxProgram) :
      HostWrites s (.loadProgram rom) .done (s.withProgram rom)
  | start (hl : s.loaded = true) (hr : s.ms ≠ .running) :
      HostWrites s .start .done { s.resetSequence with fr := .noFault, ms := .running }
  | stop (hu : s.ms ≠ .uninitialized) (hf : s.ms ≠ .faulted) : HostWrites s .stop .done { s with ms := .stopped }
  | setKey {k : Nat} {p : Bool} (hk : k < Config.keys) :
      HostWrites s (.setKeyState k p) .done { s with key := s.key.set k p hk }
  | clearDirty : HostWrites s .clearDirty .done s.clearDirty
  | takeDrawFlag : HostWrites s .takeDrawFlag (.flag s.drawp) s.takeDrawFlag.2

section
variable {s t : State} {r : HostReply}

theorem loadProgram_hostWrites {rom : List Byte} (h : s.loadProgram rom = (r, t)) :
    HostWrites s (.loadProgram rom) r t := by
  by_cases hr : s.ms = .running
  · rw [State.loadProgram_of_running hr] at h
    cases h
    exact .nothing
  rcases Nat.lt_or_ge Config.maxProgram rom.length with hlen | hlen
  · rw [State.loadProgram_of_tooLarge hr hlen] at h
    cases h
    exact .nothing
  · rw [State.loadProgram_of_fits hr hlen] at h
    cases h
    exact .loadProgram hr hlen

theorem start_hostWrites (h : s.start = (r, t)) : HostWrites s .start r t := by
  rcases s.start_cases with ⟨-, hs⟩ | ⟨-, -, hs⟩ | ⟨hl, hr, hs⟩ <;> rw [hs] at h <;> cases h
  · exact .nothing
  · exact .nothing
  · exact .start hl hr

theorem stop_hostWrites (h : s.stop = (r, t)) : HostWrites s .stop r t := by
  by_cases hidle : s.ms = .uninitialized ∨ s.ms = .faulted
  · rw [State.stop_of_idle hidle] at h
    cases h
    exact .nothing
  · obtain ⟨hu, hf⟩ := not_or.mp hidle
    rw [State.stop_of_loaded hu hf] at h
    cases h
    exact .stop hu hf

theorem setKeyState_hostWrites {k : Nat} {p : Bool} (h : s.setKeyState k p = (r, t)) :
    HostWrites s (.setKeyState k p) r t := by
  rcases Nat.lt_or_ge k Config.keys with hk | hk
  · rw [State.setKeyState_of_lt p hk] at h
    cases h
    exact .setKey hk
  · rw [State.setKeyState_of_ge p hk] at h
    cases h
    exact .nothing

theorem perform_hostWrites {op : HostOp} (h : perform s op = .next (r, t)) : HostWrites s op r t := by
  cases op with
  | step =>
    cases hs : step s with
    | next u =>
      simp only [perform, hs] at h
      cases h
      exact .step hs
    | fault f => cases f
    | refused f => simp [perform, hs] at h
  | loadProgram rom => exact loadProgram_hostWrites (Host.Outcome.next.inj h)
  | start => exact start_hostWrites (Host.Outcome.next.inj h)
  | stop => exact stop_hostWrites (Host.Outcome.next.inj h)
  | setKeyState k p => exact setKeyState_hostWrites (Host.Outcome.next.inj h)
  | clearDirty =>
    cases h
    exact .clearDirty
  | takeDrawFlag =>
    cases h
    exact .takeDrawFlag
  | isRunning | isReady | soundActive | isKeyPressed | readPixel | bufferView | dirtyView | peekDrawFlag | inspect =>
    cases h
    exact .nothing

end

/-! ### The invariant (R210 to R219) -/

section
variable {s : State} (h : s.Inv)
include h

theorem State.Inv.withProgram {rom : List Byte} (hlen : rom.length ≤ Config.maxProgram) : (s.withProgram rom).Inv :=
  { h with
    memory := Memory.wf_setBytes h.memory (Nat.add_le_add_left hlen Config.programBase)
    faultReason := by
      show s.fr ≠ .noFault ↔ (if s.ms = .faulted then Lifecycle.faulted else .loaded) = .faulted
      rw [h.faultReason]
      split <;> simp [*]
    lifecycle := by
      show (if s.ms = .faulted then Lifecycle.faulted else .loaded) = .uninitialized ↔ true = false
      split <;> decide
    programLength := hlen }

theorem State.Inv.start (hl : s.loaded = true) :
    State.Inv { s.resetSequence with fr := .noFault, ms := .running } where
  memory := Memory.wf_keepProgram s.romlen h.memory
  pcRange := by simp
  liveStack := fun _ hk => absurd hk (Nat.not_lt_zero _)
  accumulator := Nat.lt_of_lt_of_le (Nat.zero_lt_succ 59) Config_cpuHz_ge
  faultReason := by simp
  lifecycle := by simp [hl]
  programLength := h.programLength

theorem State.Inv.stop (hu : s.ms ≠ .uninitialized) (hf : s.ms ≠ .faulted) : State.Inv { s with ms := .stopped } :=
  { h with
    faultReason := by simpa [hf] using h.faultReason
    lifecycle := by simpa [hu] using h.lifecycle }

end

/-- Settles O20, by cases over what a host operation can do. -/
theorem hostOperationsKeepTheInvariant : Obligations.HostOperationsKeepTheInvariant := by
  intro s op r t h hp
  cases perform_hostWrites hp with
  | nothing => exact h
  | step hs => exact stepKeepsTheInvariant s t h hs
  | loadProgram _ hlen => exact h.withProgram hlen
  | start hl _ => exact h.start hl
  | stop hu hf => exact h.stop hu hf
  | setKey _ | clearDirty | takeDrawFlag => exact { h with }

/-! ### Refusals and faults (R208, R210) -/

/-- Settles O52: every change of state answers something other than an error. -/
theorem refusedHostOperationsChangeNothing : Obligations.RefusedHostOperationsChangeNothing := by
  refine ⟨fun s op e t hp => ?_, fun s e t hp => ?_⟩
  · cases perform_hostWrites hp with
    | nothing => rfl
  · cases hs : step s <;> simp [perform, hs] at hp

/-- Settles O56: a Faulted machine does not step or stop, and load_program leaves it Faulted. -/
theorem faultedIsLeftOnlyByStart : Obligations.FaultedIsLeftOnlyByStart := by
  intro s op r t hf hop hp
  cases perform_hostWrites hp with
  | nothing | setKey _ | clearDirty | takeDrawFlag => exact ⟨rfl, rfl⟩
  | step hs =>
    rw [step_of_not_running (by simp [hf])] at hs
    cases hs
    exact ⟨rfl, rfl⟩
  | loadProgram => exact ⟨(if_pos hf).trans hf.symm, rfl⟩
  | start => exact absurd rfl hop
  | stop _ hne => exact absurd hf hne

/-! ### The lifecycle (R211 to R214) -/

/-- Settles O53: the answers of each operation, by MS, by LOADED, which agrees with it, and by the length. -/
theorem lifecycleTable : Obligations.LifecycleTable := by
  intro s hagree
  have hloaded : s.ms ≠ .uninitialized → s.loaded = true := fun hne => by simpa [hne] using hagree
  refine ⟨fun rom => ⟨fun hr => ?_, fun hr hlen => ?_, fun hr hlen => ?_⟩, fun hu => ?_, fun hr => ?_, fun hm => ?_,
    fun hm => ?_, fun hm => ?_⟩
  · exact congrArg _ (State.loadProgram_of_running hr)
  · exact congrArg _ (State.loadProgram_of_tooLarge hr hlen)
  · exact ⟨_, congrArg _ (State.loadProgram_of_fits hr hlen), fun hf => if_pos hf, fun hf => if_neg hf, rfl⟩
  · exact congrArg _ (State.start_of_notLoaded (hagree.mp hu))
  · exact congrArg _ (State.start_of_running (hloaded (by simp [hr])) hr)
  · obtain ⟨hu, hr⟩ : s.ms ≠ .uninitialized ∧ s.ms ≠ .running := by rcases hm with h | h | h <;> simp [h]
    exact ⟨_, congrArg _ (State.start_of_ready (hloaded hu) hr), rfl, rfl⟩
  · obtain ⟨hu, hf⟩ : s.ms ≠ .uninitialized ∧ s.ms ≠ .faulted := by rcases hm with h | h | h <;> simp [h]
    exact congrArg _ (State.stop_of_loaded hu hf)
  · exact congrArg _ (State.stop_of_idle hm)

/-! ### The program area (R212, R213, R251) -/

/-- Settles O54: the reset sequence keeps the bytes that load_program has put in the program area. -/
theorem loadThenStartPlacesTheProgram : Obligations.LoadThenStartPlacesTheProgram := by
  intro s rom hr hlen
  refine ⟨s.withProgram rom, _, congrArg _ (State.loadProgram_of_fits hr hlen),
    congrArg _ (State.start_of_ready rfl State.withProgram_ms_ne_running), fun k hk => ?_,
    (State.hasResetValues_resetSequence _).setStatus .noFault .running, rfl, rfl, rfl, rfl, rfl⟩
  have hin : Config.programBase ≤ Config.programBase + k ∧
      Config.programBase + k < Config.programBase + (s.withProgram rom).romlen :=
    ⟨Nat.le_add_right _ _, Nat.add_lt_add_left hk _⟩
  exact ((s.withProgram rom).byteAt_resetSequence _).trans ((if_pos hin).trans (State.byteAt_withProgram hk))

/-- Settles O55: of the answers of start(), done is that of the reset sequence. -/
theorem restartKeepsTheProgramAreaOnly : Obligations.RestartKeepsTheProgramAreaOnly := by
  intro s t hp
  have hstart : s.start = (.done, t) := Host.Outcome.next.inj hp
  rcases s.start_cases with ⟨-, h⟩ | ⟨-, -, h⟩ | ⟨-, -, h⟩ <;> rw [h] at hstart <;> cases hstart
  exact ⟨fun a hlo hhi => (s.byteAt_resetSequence a).trans (if_pos ⟨hlo, hhi⟩),
    s.hasResetValues_resetSequence.setStatus .noFault .running, ⟨rfl, rfl, rfl⟩, rfl, rfl⟩

/-! ### Queries, keys and the display (R215 to R219) -/

/-- Settles O57: each query is a boolean comparison. -/
theorem statusQueriesArePure : Obligations.StatusQueriesArePure := by
  refine fun s => ⟨⟨_, rfl, beq_iff_eq⟩, ⟨_, rfl, ?_⟩, ⟨_, rfl, s.soundActive_iff⟩⟩
  rw [State.isReady, Bool.and_eq_true, bne_iff_ne]

/-- Settles O58: a key above 0xF has no cell of KEY, and any other has one of its own. -/
theorem keyOperations : Obligations.KeyOperations := by
  refine fun s n p => ⟨fun hn => ⟨?_, ?_⟩, ?_⟩
  · exact congrArg _ (State.setKeyState_of_ge p hn)
  · exact congrArg (fun r => Host.Outcome.next (r, s)) (State.isKeyPressed_of_ge hn)
  · rintro k rfl
    refine ⟨?_, _, congrArg _ (State.setKeyState_of_lt p k.isLt), ?_, fun j hj => ?_, rfl⟩
    · exact congrArg (fun r => Host.Outcome.next (r, s)) (State.isKeyPressed_of_lt k.isLt)
    · exact Vector.getElem_set_self k.isLt
    · exact Vector.getElem_set_ne k.isLt j.isLt fun he => hj (Fin.ext he.symm)

/-- Settles O59: the coordinates are those of `row` and `column`, and clear_dirty() fills DIRTY. -/
theorem displayOperations : Obligations.DisplayOperations := by
  refine fun s => ⟨fun px py y x hy hx => ?_, rfl, rfl, rfl, fun _ _ => rfl, s.clearDirty, rfl,
    fun y b => Grid.get_fill y b false, rfl⟩
  obtain rfl : y = row py := Fin.ext hy
  obtain rfl : x = column px := Fin.ext hx
  rfl

end Sys2Proof.Machine
end

section
/-! PROOFS of the family 60_exceptions.md, the step and the faults: which fault an instruction and a step raise, said once,
and what a faulting step leaves. -/

namespace Sys2Proof.Machine

/-! ### The fault of an instruction (R201, R202) -/

/-- The fault of an access to the `n` bytes from `a` on (R201, D17). -/
def rangeFault (a n : Nat) : FaultReason :=
  if ∃ k, k < n ∧ 0xFFF < a + k then .addressOutOfRange else .noFault

/-- The fault that instruction `i` raises when it is executed from `s`, or `noFault` (R121, R122, R124, R201). -/
def faultFrom (s : State) : Instr → FaultReason
  | .sys _ => .illegalInstruction
  | .ret => if s.sp.val = 0 then .stackUnderflow else .noFault
  | .call _ => if s.sp.val = 16 then .stackOverflow else .noFault
  | i => rangeFault s.base i.accessedBytes

theorem rangeFault_zero (a : Nat) : rangeFault a 0 = .noFault := if_neg fun ⟨_, hk, _⟩ => absurd hk (Nat.not_lt_zero _)

/-- Of consecutive bytes, one is above 0xFFF exactly when the last is. -/
theorem rangeFault_succ (a n : Nat) :
    rangeFault a (n + 1) = if 0xFFF < a + n then .addressOutOfRange else .noFault :=
  if_congr ⟨fun ⟨_, hk, hover⟩ => by omega, fun h => ⟨n, n.lt_succ_self, h⟩⟩ rfl rfl

theorem rangeFault_eq_iff {a n : Nat} : rangeFault a n = .addressOutOfRange ↔ ∃ k, k < n ∧ 0xFFF < a + k := by
  unfold rangeFault
  split
  · next h => exact iff_of_true rfl h
  · next h => exact iff_of_false (by decide) h

theorem rangeFault_ne {f : FaultReason} (hf : f ≠ .noFault) (ha : f ≠ .addressOutOfRange) (a n : Nat) :
    rangeFault a n ≠ f := by
  unfold rangeFault
  split
  · exact ha.symm
  · exact hf.symm

theorem State.storeBytes_fr {s : State} {bs : List Byte} {n : Nat} (a : Nat) (hlen : bs.length = n + 1)
    (hfr : s.fr = .noFault) : (s.storeBytes a bs).fr = rangeFault a (n + 1) := by
  have htop : Config.memTop = 0xFFF := rfl
  rw [rangeFault_succ]
  split
  · rw [State.storeBytes_of_over (by omega) (List.ne_nil_of_length_eq_add_one hlen), State.raise_fr]
  · rw [State.storeBytes_of_fits (by omega)]
    exact hfr

theorem State.loadBytes_fr {s : State} {rs : List Reg} {n : Nat} (a : Nat) (hlen : rs.length = n + 1)
    (hfr : s.fr = .noFault) : (s.loadBytes a rs).fr = rangeFault a (n + 1) := by
  have htop : Config.memTop = 0xFFF := rfl
  rw [rangeFault_succ]
  split
  · rw [State.loadBytes_of_over (by omega) (List.ne_nil_of_length_eq_add_one hlen), State.raise_fr]
  · rw [State.loadBytes_of_fits (by omega)]
    exact (congrArg State.fr (s.loadedRegs_frame a rs)).trans hfr

theorem exec_drw_fr {x y : Reg} {n : Nibble} {s t : State} (hfr : s.fr = .noFault) (h : exec (.drw x y n) s = .next t) :
    t.fr = rangeFault s.base n.toNat := by
  rcases rows_in_range_or_first_out s.base n with hfits | ⟨m, hmn, hfits, hover⟩
  · rw [exec_drw_of_fits x y n hfits] at h
    cases h
    have hframe := s.beginDraw.drawnRows_frame ((s.reg x).toNat % 64) ((s.reg y).toNat % 32) s.base (List.range n.toNat)
    have hnone : ¬ ∃ k, k < n.toNat ∧ 0xFFF < s.base + k := fun ⟨k, hk, hover⟩ => absurd hover (hfits k hk).not_gt
    exact ((congrArg State.fr hframe).trans hfr).trans (if_neg hnone).symm
  · rw [exec_drw_of_over x y n hmn hfits hover] at h
    cases h
    exact (if_pos ⟨m.toNat, hmn, hover⟩).symm

theorem State.skipIf_fr (s : State) (c : Bool) : (s.skipIf c).fr = s.fr := by cases c <;> rfl

/-- From a state with no fault, FR afterwards is the fault that the instruction raises. -/
theorem exec_fr {i : Instr} {s t : State} (hfr : s.fr = .noFault) (h : exec i s = .next t) :
    t.fr = faultFrom s i := by
  have hnone : s.fr = rangeFault s.base 0 := hfr.trans (rangeFault_zero _).symm
  cases i with
  | sys =>
    cases h
    rfl
  | ret =>
    rcases Nat.eq_zero_or_pos s.sp.val with hs | hs
    · rw [exec_ret_of_empty hs] at h
      cases h
      exact (if_pos hs).symm
    · rw [exec_ret_of_some hs] at h
      cases h
      exact hfr.trans (if_neg hs.ne').symm
  | call nnn =>
    rcases Nat.lt_or_ge s.sp.val Config.stackDepth with hs | hs
    · rw [exec_call_of_room nnn hs] at h
      cases h
      exact hfr.trans (if_neg hs.ne).symm
    · have hfull : s.sp.val = Config.stackDepth := by omega
      rw [exec_call_of_full nnn hfull] at h
      cases h
      exact (if_pos hfull).symm
  | ldVxK x =>
    cases hk : s.leastKeyDown with
    | none =>
      rw [exec_ldVxK_of_none x hk] at h
      cases h
      exact hnone
    | some k =>
      rw [exec_ldVxK_of_some x hk] at h
      cases h
      exact hnone
  | drw => exact exec_drw_fr hfr h
  | ldBVx x =>
    cases h
    exact State.storeBytes_fr s.base (length_bcdDigits _) hfr
  | storeRegs x =>
    cases h
    exact State.storeBytes_fr s.base (length_map_reg_regsUpTo s x) hfr
  | loadRegs x =>
    cases h
    exact State.loadBytes_fr s.base (length_regsUpTo x) hfr
  | seImm | sneImm | seReg | sneReg | skp | sknp =>
    cases h
    exact (s.skipIf_fr _).trans hnone
  | _ =>
    cases h
    exact hnone

/-! ### Which instruction raises a given fault -/

section
variable {s : State} {i : Instr}

theorem faultFrom_eq_illegalInstruction_iff :
    faultFrom s i = .illegalInstruction ↔ ∃ nnn, i = .sys nnn := by
  cases i with
  | sys nnn => exact iff_of_true rfl ⟨nnn, rfl⟩
  | ret | call => simp [faultFrom, ite_eq_iff]
  | _ => simp [faultFrom, rangeFault_ne]

theorem faultFrom_eq_stackOverflow_iff :
    faultFrom s i = .stackOverflow ↔ ∃ nnn, i = .call nnn ∧ s.sp.val = 16 := by
  cases i with
  | sys | ret | call => simp [faultFrom, ite_eq_iff]
  | _ => simp [faultFrom, rangeFault_ne]

theorem faultFrom_eq_stackUnderflow_iff :
    faultFrom s i = .stackUnderflow ↔ i = .ret ∧ s.sp.val = 0 := by
  cases i with
  | sys | ret | call => simp [faultFrom, ite_eq_iff]
  | _ => simp [faultFrom, rangeFault_ne]

theorem faultFrom_eq_addressOutOfRange_iff :
    faultFrom s i = .addressOutOfRange ↔ ∃ k, k < i.accessedBytes ∧ 0xFFF < s.base + k := by
  cases i with
  | sys | ret | call => simp [faultFrom, Instr.accessedBytes, ite_eq_iff]
  | _ => exact rangeFault_eq_iff

/-- The faults of the stack and of SYS are raised before anything is written (R209). -/
theorem exec_eq_raise_of_precise {f : FaultReason} (hf : faultFrom s i = f)
    (hp : f = .stackOverflow ∨ f = .stackUnderflow ∨ f = .illegalInstruction) : exec i s = .next (s.raise f) := by
  rcases hp with rfl | rfl | rfl
  · obtain ⟨nnn, rfl, hs⟩ := faultFrom_eq_stackOverflow_iff.mp hf
    exact exec_call_of_full nnn hs
  · obtain ⟨rfl, hs⟩ := faultFrom_eq_stackUnderflow_iff.mp hf
    exact exec_ret_of_empty hs
  · obtain ⟨nnn, rfl⟩ := faultFrom_eq_illegalInstruction_iff.mp hf
    rfl

end

/-! ### The step (R220, R264) -/

/-- What a step of a Running machine leaves: a fetch fault, an illegal word's fault, or an instruction's state at its end. -/
theorem step_next_cases {s t : State} (hr : s.ms = .running) (h : step s = .next t) :
    (0xFFE < s.pc.toNat ∧ t = s.raise .addressOutOfRange) ∨
    (∃ w e, s.fetch = .ok w ∧ decode w = .error e ∧ t = s.advancePc.raise .illegalInstruction) ∨
    ∃ w i u, s.fetch = .ok w ∧ decode w = .ok i ∧ exec i s.advancePc = .next u ∧ t = u.endStep := by
  rcases step_cases s with ⟨hne, -⟩ | ⟨-, hpc, hs⟩ | ⟨w, e, -, hf, hd, hs⟩ | ⟨w, i, -, hf, hd, hs⟩
  · exact absurd hr hne
  · rw [hs] at h
    cases h
    exact .inl ⟨Nat.lt_of_succ_lt_succ hpc, rfl⟩
  · rw [hs] at h
    cases h
    exact .inr (.inl ⟨w, e, hf, hd, rfl⟩)
  · obtain ⟨u, hu, -⟩ := exec_next_writes i s.advancePc
    rw [hs, hu] at h
    cases h
    exact .inr (.inr ⟨w, i, u, hf, hd, hu, rfl⟩)

/-- Settles O10, by cases over what a step can do. -/
theorem everyStepAnswersANextState : Obligations.EveryStepAnswersANextState := by
  refine fun s => ⟨?_, step_of_not_running⟩
  rcases step_cases s with ⟨-, hs⟩ | ⟨-, -, hs⟩ | ⟨w, e, -, -, -, hs⟩ | ⟨w, i, -, -, -, hs⟩
  · exact ⟨_, hs⟩
  · exact ⟨_, hs⟩
  · exact ⟨_, hs⟩
  · obtain ⟨u, hu, -⟩ := exec_next_writes i s.advancePc
    exact ⟨u.endStep, by rw [hs, hu]; rfl⟩

/-- Settles O9: the step is the instruction's outcome, ended. -/
theorem stepRunsTheDecodedInstruction : Obligations.StepRunsTheDecodedInstruction := by
  intro s i hr hpc hd
  rw [step_of_decoded hr (State.fetch_of_le hpc) hd]
  show endOutcome (exec i { s with pc := s.pc + 2 }) = _
  cases exec i { s with pc := s.pc + 2 } <;> rfl

/-! ### The fault of a step (R201 to R203) -/

theorem State.endStep_fr (s : State) : s.endStep.fr = s.fr := by
  unfold State.endStep
  split <;> rfl

theorem State.endStep_ms (s : State) : s.endStep.ms = s.ms := by
  unfold State.endStep
  split <;> rfl

theorem State.endStep_of_running {s : State} (h : s.ms = .running) : s.endStep = s.prescale := if_pos h

theorem State.endStep_of_faulted {s : State} (h : s.ms = .faulted) : s.endStep = s := if_neg (by simp [h])

/-- Which fault a step raises: that of its fetch, of an illegal word, or of its instruction. -/
theorem step_fr_eq_iff {s t : State} {f : FaultReason} (hr : s.ms = .running) (hfr : s.fr = .noFault)
    (h : step s = .next t) :
    t.fr = f ↔ (0xFFE < s.pc.toNat ∧ f = .addressOutOfRange) ∨
      ∃ w, s.fetch = .ok w ∧ (((∃ e, decode w = .error e) ∧ f = .illegalInstruction) ∨
        ∃ i, decode w = .ok i ∧ faultFrom s i = f) := by
  rcases step_next_cases hr h with ⟨hpc, rfl⟩ | ⟨w, e, hf, hd, rfl⟩ | ⟨w, i, u, hf, hd, hu, rfl⟩
  · simp [State.fetch_of_gt hpc, hpc, eq_comm]
  · obtain ⟨-, hpc⟩ := State.toNat_advancePc_pc hf
    simp [hf, hd, hpc.not_gt, eq_comm]
  · obtain ⟨-, hpc⟩ := State.toNat_advancePc_pc hf
    have hufr : u.fr = faultFrom s i := exec_fr (s := s.advancePc) hfr hu
    simp [hf, hd, hpc.not_gt, State.endStep_fr, hufr]

/-- Settles O11: a word of the table is one that decodes to nothing or to SYS (O5). -/
theorem illegalInstructionExactlyOnFaultingWords : Obligations.IllegalInstructionExactlyOnFaultingWords := by
  intro s t hr hfr h
  have htable (w : Word) := wordsOfTheIllegalTable w
  simp [step_fr_eq_iff hr hfr h, htable, faultFrom_eq_illegalInstruction_iff]

/-- Settles O12: CALL and RET alone raise the faults of the stack. -/
theorem stackFaultsOnlyFromCallAndRet : Obligations.StackFaultsOnlyFromCallAndRet := by
  intro s t hr hfr h
  constructor
  · simp [step_fr_eq_iff hr hfr h, faultFrom_eq_stackOverflow_iff]
  · simp [step_fr_eq_iff hr hfr h, faultFrom_eq_stackUnderflow_iff]

/-- Settles O13: the fetch and the four data accesses alone raise it, and of the host's other operations start() alone
writes FR. -/
theorem addressOutOfRangeExactlyWhere : Obligations.AddressOutOfRangeExactlyWhere := by
  refine ⟨fun s t hr hfr h => ?_, fun s op r t hop hp => ?_⟩
  · simp [step_fr_eq_iff hr hfr h, faultFrom_eq_addressOutOfRange_iff]
  · cases perform_hostWrites hp with
    | step => exact absurd rfl hop
    | start => exact .inr rfl
    | nothing | loadProgram | stop | setKey | clearDirty | takeDrawFlag => exact .inl rfl

/-- Settles O14: an instruction that raises one of them has written nothing, and a fetch raises another. -/
theorem preciseFaultsChangeNothingElse : Obligations.PreciseFaultsChangeNothingElse := by
  intro s t hr hfr h hp
  rcases step_next_cases hr h with ⟨-, rfl⟩ | ⟨w, e, -, -, rfl⟩ | ⟨w, i, u, -, -, hu, rfl⟩
  · simp at hp
  · rfl
  · rw [State.endStep_fr] at hp ⊢
    have hraise := exec_eq_raise_of_precise (exec_fr (s := s.advancePc) hfr hu).symm hp
    have hufault : u = s.advancePc.raise u.fr := Host.Outcome.next.inj (hu.symm.trans hraise)
    rw [State.endStep_of_faulted (congrArg State.ms hufault)]
    exact hufault

end Sys2Proof.Machine
end

section
/-! PROOFS of the family 60_exceptions.md, the timers: what ticks and turns of the prescaler leave, and what a step does to
the timers. -/

namespace Sys2Proof.Machine

/-! ### Ticks and the prescaler (R225 to R227) -/

/-- Settles O16: each timer counts down on its own. -/
theorem tickDecrementsAndSaturates : Obligations.TickDecrementsAndSaturates := by
  intro s
  have hdt : s.tick.dt.toNat = s.dt.toNat - 1 := toNat_countDown s.dt
  have hst : s.tick.st.toNat = s.st.toNat - 1 := toNat_countDown s.st
  exact ⟨by omega, by omega, by omega, by omega, rfl⟩

theorem State.toNat_iterate_tick (s : State) (n : Nat) :
    (State.tick^[n] s).dt.toNat = s.dt.toNat - n ∧ (State.tick^[n] s).st.toNat = s.st.toNat - n := by
  induction n with
  | zero => exact ⟨rfl, rfl⟩
  | succ n ih =>
    obtain ⟨hdt, hst⟩ := ih
    rw [Function.iterate_succ_apply', State.tick_dt, State.tick_st, toNat_countDown, toNat_countDown, hdt, hst]
    exact ⟨rfl, rfl⟩

theorem State.prescaleAt_of_tick {s : State} {hz : Nat} (h : hz ≤ s.tacc + 60) :
    s.prescaleAt hz = { s.tick with tacc := s.tacc + 60 - hz } := by
  have h : hz ≤ s.tacc + Config.timerHz := h
  simp only [State.prescaleAt, if_pos h]
  rfl

theorem State.prescaleAt_of_no_tick {s : State} {hz : Nat} (h : s.tacc + 60 < hz) :
    s.prescaleAt hz = { s with tacc := s.tacc + 60 } := by
  have h : ¬ hz ≤ s.tacc + Config.timerHz := Nat.not_le_of_lt h
  simp only [State.prescaleAt, if_neg h]
  rfl

/-- 60 more carry over into the quotient at most once, when 60 is at most the divisor. -/
theorem div_mod_add_sixty {hz a : Nat} (hhz : 60 ≤ hz) :
    (hz ≤ a % hz + 60 ∧ (a + 60) / hz = a / hz + 1 ∧ (a + 60) % hz = a % hz + 60 - hz) ∨
    (a % hz + 60 < hz ∧ (a + 60) / hz = a / hz ∧ (a + 60) % hz = a % hz + 60) := by
  have hpos : 0 < hz := by omega
  have hmod := Nat.mod_lt a hpos
  have hsplit := Nat.mod_add_div a hz
  rcases Nat.lt_or_ge (a % hz + 60) hz with hlt | hge
  · exact .inr ⟨hlt, (Nat.div_mod_unique hpos).mpr ⟨by omega, hlt⟩⟩
  · exact .inl ⟨hge, (Nat.div_mod_unique hpos).mpr ⟨by rw [Nat.mul_succ]; omega, by omega⟩⟩

/-- The prescaler's ticks are the quotient, and TACC the remainder, of the 60s added (R226). -/
theorem State.iterate_prescaleAt {s : State} {hz : Nat} (hhz : 60 ≤ hz) (h0 : s.tacc = 0) (n : Nat) :
    (State.prescaleAt hz)^[n] s = { State.tick^[60 * n / hz] s with tacc := 60 * n % hz } := by
  induction n with
  | zero =>
    rw [Nat.mul_zero, Nat.zero_div, Nat.zero_mod]
    exact congrArg (fun a => { s with tacc := a }) h0
  | succ n ih =>
    rw [Function.iterate_succ_apply', ih, Nat.mul_succ]
    rcases div_mod_add_sixty (a := 60 * n) hhz with ⟨hle, hdiv, hmod⟩ | ⟨hlt, hdiv, hmod⟩
    · rw [hdiv, hmod, Function.iterate_succ_apply', State.prescaleAt_of_tick hle]
      rfl
    · rw [hdiv, hmod, State.prescaleAt_of_no_tick hlt]

/-- Settles O17: n turns of the prescaler are so many ticks and what is left in TACC. -/
theorem prescalerTicksExactly : Obligations.PrescalerTicksExactly := by
  refine ⟨State.toNat_iterate_tick, fun hz n s hhz h0 => ?_⟩
  rw [State.iterate_prescaleAt hhz h0]
  exact ⟨rfl, State.toNat_iterate_tick s (60 * n / hz)⟩

/-! ### The timers over a step (R205, R220, R226) -/

/-- An instruction that faults is none of those that write a timer. -/
theorem exec_sameTimers_of_faulted {i : Instr} {s t : State} (hr : s.ms = .running) (h : exec i s = .next t)
    (hf : t.ms = .faulted) : SameTimers s t := by
  have hw := exec_writes h
  have hdt : ∀ x, i ≠ .ldDtVx x := by
    rintro x rfl
    cases h
    simp [hr] at hf
  have hst : ∀ x, i ≠ .ldStVx x := by
    rintro x rfl
    cases h
    simp [hr] at hf
  exact ⟨hw.dt hdt, hw.st hst, hw.tacc⟩

/-- A timer over the prescaler, in numbers. -/
theorem toNat_ite_countDown (p : Prop) [Decidable p] (b : Byte) :
    (if p then countDown b else b).toNat = if p then b.toNat - 1 else b.toNat := by
  split
  · exact toNat_countDown b
  · rfl

/-- Settles O15: a fault skips the prescaler, and an instruction writes no TACC and no timer but its own. -/
theorem stepsDriveTheTimers : Obligations.StepsDriveTheTimers := by
  refine ⟨fun s t hr h hfault => ?_, fun s t w i hr hf hd h hrun => ?_⟩
  · rcases step_next_cases hr h with ⟨-, rfl⟩ | ⟨w, e, -, -, rfl⟩ | ⟨w, i, u, -, -, hu, rfl⟩
    · exact ⟨rfl, rfl, rfl⟩
    · exact ⟨rfl, rfl, rfl⟩
    · rw [State.endStep_ms] at hfault
      rw [State.endStep_of_faulted hfault]
      exact exec_sameTimers_of_faulted (s := s.advancePc) hr hu hfault
  · obtain ⟨u, hu, hw⟩ := exec_next_writes i s.advancePc
    have htacc : u.tacc = s.tacc := hw.tacc
    rw [step_of_decoded hr hf hd, hu] at h
    cases h
    rw [State.endStep_ms] at hrun
    rw [State.endStep_of_running hrun, State.prescale, State.prescaleAt_tacc, State.prescaleAt_dt, State.prescaleAt_st,
      htacc, toNat_ite_countDown, toNat_ite_countDown]
    refine ⟨rfl, fun hi => ?_, fun hi => ?_⟩
    · rw [hw.dt hi]; rfl
    · rw [hw.st hi]; rfl

end Sys2Proof.Machine
end

section
/-! PROOFS of the family 70_reset_and_hazards.md: what the host may write other than by start() and step(). -/

namespace Sys2Proof.Machine

/-- load_program writes its own range only (R212). -/
theorem State.byteAt_withProgram_outside {s : State} {rom : List Byte} {a : Nat}
    (ha : a < Config.programBase ∨ Config.programBase + rom.length ≤ a) :
    (s.withProgram rom).byteAt a = s.byteAt a := by
  have hout : ¬ (Config.programBase ≤ a ∧ a < Config.programBase + rom.length) := by omega
  show (s.mem.setBytes Config.programBase rom).get a = _
  rw [Memory.get_setBytes, if_neg hout, State.byteAt]

/-- Settles O60, by cases over what a host operation can do: load_program writes memory in its range, and the others the
status, the keys and the display's trackers. -/
theorem hostWritesOnlyItsOwnState : Obligations.HostWritesOnlyItsOwnState := by
  intro s op r t hstep hstart hp
  cases perform_hostWrites hp with
  | step => exact absurd rfl hstep
  | start => exact absurd rfl hstart
  | loadProgram =>
    refine ⟨fun _ => rfl, rfl, rfl, ⟨rfl, rfl⟩, ⟨rfl, rfl, rfl⟩, rfl, ?_, fun hne => absurd rfl (hne _)⟩
    rintro _ ⟨⟩ a ha
    exact State.byteAt_withProgram_outside ha
  | nothing | stop | setKey | clearDirty | takeDrawFlag =>
    exact ⟨fun _ => rfl, rfl, rfl, ⟨rfl, rfl⟩, ⟨rfl, rfl, rfl⟩, rfl, fun _ _ _ _ => rfl, fun _ _ => rfl⟩

end Sys2Proof.Machine
end
